-- ==== Sys2Proof/Word.lean ====
section
/-! DEFINITION. The word of every interface of the CORE, and the byte a word is laid out in. -/

namespace Sys2Proof

/-- A word: 32 bits, bit 31 the most significant (R13; 00_scope.md section 5.1). -/
abbrev Word := BitVec 32

/-- A byte of a stream that a transport lays out (R43). -/
abbrev Byte := BitVec 8

end Sys2Proof
end

