-- ==== Sys2Proof/Config.lean ====
section
/-! DEFINITION. What one instance of the hardware fixes (00_scope.md section 4), and the values the spec
leaves open: each open value is an opaque constant without a body, so that no proof can see it. -/

namespace Sys2Proof

/-- The five constants of one biquad stage, in the order of R8 and R36. -/
structure Coef where
  b0 : Word
  b1 : Word
  b2 : Word
  a1 : Word
  a2 : Word
  deriving DecidableEq, Repr

/-- The constants of one channel's cascade: exactly four stages, numbered 0 to 3 (R6, R8). -/
structure BankCoef where
  k0 : Coef
  k1 : Coef
  k2 : Coef
  k3 : Coef
  deriving DecidableEq, Repr

/-- The constants of one instance (R6 to R10): not written by any command, not changed by any reset. -/
structure Params where
  /-- `MAXCH`, the largest channel count (R7). -/
  maxch : Nat
  /-- `COEF[c]` for `c < MAXCH` (R8). -/
  coef : List BankCoef
  /-- `FADE_START_MS` (R9). -/
  fadeStartMs : Word
  /-- `FADE_END_MS` (R9). -/
  fadeEndMs : Word
  /-- `G_DEFAULT`, the output gain after power-on reset (R10). -/
  gDefault : Word
  /-- `D_DEFAULT`, the distortion amount after power-on reset (R10). -/
  dDefault : Word
  deriving DecidableEq, Repr

/-- The operations whose result can be a NaN that the spec leaves open (R16). -/
inductive FOp where
  | fadd
  | fsub
  | fmul
  | fdiv
  | fround
  deriving DecidableEq, Repr

/-- OPEN parameter `MAXCH` (R7, D30), as `MAXCH - 1`: so every instance has `1 <= MAXCH <= 1024`.
DESIGN CHOICE (log entry 1). -/
opaque Config.maxchCode : BitVec 10

/-- OPEN parameter `COEF` (R8, D9): the constant `j` (0 to 4 for b0, b1, b2, a1, a2) of channel `c`, stage `s`.
Safe: nothing is known of it (log entry 1). -/
opaque Config.coefWord (c s j : Nat) : Word

/-- OPEN parameter `POWF` (R11, D10): a total function of its two operands alone.
Safe: nothing is known of it (log entry 2). -/
opaque Config.powf (base exponent : Word) : Word

/-- Sign and payload of the NaN that an operation yields on these operands (R16, U1): a free value.
DEDUCED (log entry 3): a function of the operation and its operands. -/
opaque Config.nanBits (op : FOp) (a b : Word) : Word

/-- The coefficients of stage `s` of channel `c` of the instance at hand. -/
def Config.stageCoef (c s : Nat) : Coef :=
  { b0 := Config.coefWord c s 0, b1 := Config.coefWord c s 1, b2 := Config.coefWord c s 2
    a1 := Config.coefWord c s 3, a2 := Config.coefWord c s 4 }

/-- The coefficients of channel `c` of the instance at hand. -/
def Config.bankCoef (c : Nat) : BankCoef :=
  { k0 := Config.stageCoef c 0, k1 := Config.stageCoef c 1
    k2 := Config.stageCoef c 2, k3 := Config.stageCoef c 3 }

/-- The instance at hand: `MAXCH` and `COEF` open, the fade times and the smoother defaults at the values
R9 and R10 state (1000.0 ms, 2000.0 ms, 1.0, 0.0). -/
def Config.params : Params :=
  { maxch := Config.maxchCode.toNat + 1
    coef := (List.range (Config.maxchCode.toNat + 1)).map Config.bankCoef
    fadeStartMs := 0x447A0000#32
    fadeEndMs := 0x44FA0000#32
    gDefault := 0x3F800000#32
    dDefault := 0x00000000#32 }

end Sys2Proof
end

