-- ==== Sys2Proof/Machine/Float.lean ====
section
/-! DEFINITION. The floating-point primitives (00_scope.md section 5.6, R14 to R21): IEEE 754 binary32, round to
nearest with ties to even, subnormals kept, nothing fused, no exception flag. Operands are turned into
exact integers (units of 2^-149, the least subnormal), the result is computed exactly and rounded once. -/

namespace Sys2Proof.Machine

/-- `+0.0` (R14). -/
abbrev posZero : Word := 0x00000000#32
/-- `-0.0` (R14). -/
abbrev negZero : Word := 0x80000000#32
/-- `1.0` (R14). -/
abbrev one : Word := 0x3F800000#32
/-- `-1.0` (R14). -/
abbrev negOne : Word := 0xBF800000#32
/-- `+infinity` (R14). -/
abbrev posInf : Word := 0x7F800000#32
/-- `1000.0`, the divisor of `ms2n` (R21). -/
abbrev thousand : Word := 0x447A0000#32

/-- The exponent and fraction of infinity, as one number: 255 and 0 (R14). -/
def infMag : Nat := 255 * 2 ^ 23

/-- The sign, bit 31 (R14). -/
def fSign (w : Word) : Bool := w.msb

/-- Exponent and fraction, bits 30 to 0, as one number (R14). -/
def fMag (w : Word) : Nat := w.toNat % 2 ^ 31

/-- Exponent 255 and a fraction that is not zero (R14). -/
def isNaN (w : Word) : Bool := decide (infMag < fMag w)

/-- Exponent 255 and fraction 0 (R14). -/
def isInf (w : Word) : Bool := decide (fMag w = infMag)

/-- Neither NaN nor infinite (R14). -/
def isFinite (w : Word) : Bool := decide (fMag w < infMag)

/-- The magnitude of a finite number in units of 2^-149 (R14: the hidden bit, subnormals without it). -/
def magUnits (mag : Nat) : Nat :=
  if mag / 2 ^ 23 = 0 then mag % 2 ^ 23 else (2 ^ 23 + mag % 2 ^ 23) * 2 ^ (mag / 2 ^ 23 - 1)

/-- The magnitude of a finite word in units of 2^-149. -/
def units (w : Word) : Nat := magUnits (fMag w)

/-- The value of a finite word in units of 2^-149. -/
def signedUnits (w : Word) : Int := if fSign w then -(units w : Int) else (units w : Int)

/-- A word from its sign and its exponent and fraction. -/
def packFloat (sign : Bool) (mag : Nat) : Word := BitVec.ofNat 32 ((if sign then 2 ^ 31 else 0) + mag)

/-- `num / den` rounded to the nearest integer, a tie to the even one (R15). -/
def roundHalfEven (num den : Nat) : Nat :=
  if 2 * (num % den) < den then num / den
  else if den < 2 * (num % den) then num / den + 1
  else num / den + num / den % 2

/-- Exponent and fraction of the binary32 nearest `num / den` units of 2^-149, ties to even, infinity on
overflow (R15). The last place of the result is `2 ^ sh` units, where `sh` is 0 for the subnormals and the
least normal binade and one more for each binade above. -/
def roundMag (num den : Nat) : Nat :=
  min (((num / den).log2 - 23) * 2 ^ 23 + roundHalfEven num (den * 2 ^ ((num / den).log2 - 23))) infMag

/-- Some NaN with the sign and payload of `x`: every NaN pattern comes from some `x`, and none else does. -/
def asNaN (x : Word) : Word :=
  packFloat (fSign x) (infMag + (if x.toNat % 2 ^ 23 = 0 then 2 ^ 22 else x.toNat % 2 ^ 23))

/-- The NaN that an operation yields: a free value (R16, U1; log entry 3). -/
def freeNaN (op : FOp) (a b : Word) : Word := asNaN (Config.nanBits op a b)

/-- The same number with its sign bit inverted. -/
def fneg (w : Word) : Word := w ^^^ negZero

/-- `fadd(a, b)` (R15). A zero sum is +0.0 unless both operands are -0.0, as IEEE 754 rounds to nearest. -/
def fadd (a b : Word) : Word :=
  if isNaN a || isNaN b then freeNaN .fadd a b
  else if isInf a then (if isInf b && fSign a != fSign b then freeNaN .fadd a b else a)
  else if isInf b then b
  else if signedUnits a + signedUnits b = 0 then (if fSign a && fSign b then negZero else posZero)
  else packFloat (decide (signedUnits a + signedUnits b < 0)) (roundMag (signedUnits a + signedUnits b).natAbs 1)

/-- `fsub(a, b)` (R15): the sum of `a` and the negation of `b`. -/
def fsub (a b : Word) : Word :=
  if isNaN a || isNaN b then freeNaN .fsub a b
  else if isInf a && isInf b && fSign a == fSign b then freeNaN .fsub a b
  else fadd a (fneg b)

/-- `fmul(a, b)` (R15). Infinity times zero is invalid. -/
def fmul (a b : Word) : Word :=
  if isNaN a || isNaN b then freeNaN .fmul a b
  else if isInf a || isInf b then
    (if fMag a = 0 || fMag b = 0 then freeNaN .fmul a b else packFloat (fSign a != fSign b) infMag)
  else packFloat (fSign a != fSign b) (roundMag (units a * units b) (2 ^ 149))

/-- `fdiv(a, b)` (R15). Zero by zero and infinity by infinity are invalid; another number by zero is an
infinity. -/
def fdiv (a b : Word) : Word :=
  if isNaN a || isNaN b then freeNaN .fdiv a b
  else if isInf a then (if isInf b then freeNaN .fdiv a b else packFloat (fSign a != fSign b) infMag)
  else if isInf b then packFloat (fSign a != fSign b) 0
  else if fMag b = 0 then
    (if fMag a = 0 then freeNaN .fdiv a b else packFloat (fSign a != fSign b) infMag)
  else packFloat (fSign a != fSign b) (roundMag (units a * 2 ^ 149) (units b))

/-- Where a word that is no NaN stands on the number line; both zeros stand at 0 (R17). -/
def orderKey (w : Word) : Int := if fSign w then -(fMag w : Int) else (fMag w : Int)

/-- `feq(a, b)`: false on a NaN (R17). -/
def feq (a b : Word) : Bool := !isNaN a && !isNaN b && decide (orderKey a = orderKey b)

/-- `fge(a, b)`: false on a NaN (R17). -/
def fge (a b : Word) : Bool := !isNaN a && !isNaN b && decide (orderKey b ≤ orderKey a)

/-- `fgt(a, b)`: false on a NaN (R17). -/
def fgt (a b : Word) : Bool := !isNaN a && !isNaN b && decide (orderKey b < orderKey a)

/-- `u2f(n)`: the binary32 nearest the unsigned integer, ties to even (R18). -/
def u2f (n : Word) : Word := packFloat false (roundMag (n.toNat * 2 ^ 149) 1)

/-- `fround(x)`: the nearest integer-valued binary32, a tie away from zero; NaN to some NaN, an infinity to
itself (R19). -/
def fround (x : Word) : Word :=
  if isNaN x then freeNaN .fround x x
  else if isInf x then x
  else packFloat (fSign x) (roundMag ((2 * units x + 2 ^ 149) / 2 ^ 150 * 2 ^ 149) 1)

/-- `f2u_sat(x)`: to `u32`, saturating; NaN and what is not above zero give 0 (R20). -/
def f2uSat (x : Word) : Word :=
  if fgt x posZero then
    (if isInf x then 0xFFFFFFFF#32 else BitVec.ofNat 32 (min (units x / 2 ^ 149) (2 ^ 32 - 1)))
  else 0#32

/-- `ms2n(ms, fs)`: milliseconds to a count of samples (R21). -/
def ms2n (ms fs : Word) : Word := f2uSat (fround (fmul (fdiv ms thousand) fs))

end Sys2Proof.Machine
end

