-- ==== Sys2Proof/Syntax.lean ====
section
/-! DEFINITION. The five commands of the CORE (30_encoding.md), one constructor for each row of the opcode table. -/

namespace Sys2Proof

/-- The smoother index `P` of CFG: 0 = output gain, 1 = distortion amount (R64, R72). -/
inductive SmIdx where
  | gain
  | dist
  deriving DecidableEq, Repr

/-- The interpolation law `LAW`: 0 = linear, 1 = logarithmic (R31, R64). -/
inductive Law where
  | lin
  | log
  deriving DecidableEq, Repr

/-- The five opcodes of the header (R62 to R66). -/
inductive Opcode where
  | init
  | reset
  | cfg
  | proc
  | rdreg
  deriving DecidableEq, Repr

/-- A command with the fields of its header and, for INIT and CFG, its operand words. The samples of a PROC
are no part of it: PROC takes them from the command stream one frame at a time (R69, R112), and how many
there are depends on the register `NCH` (R68). -/
inductive Instr where
  /-- `INIT fs, nch` (R62, R120). -/
  | init (nch : Nat) (fs : Word)
  /-- `RESET` (R63, R122). -/
  | reset
  /-- `CFG p, law, target, ramp_ms` (R64, R74). -/
  | cfg (p : SmIdx) (law : Law) (target rampMs : Word)
  /-- `PROC n` (R65, R112). -/
  | proc (n : Nat)
  /-- `RDREG addr` (R66, R124). -/
  | rdreg (addr : Nat)
  deriving DecidableEq, Repr

/-- The opcode of a command. -/
def Instr.opcode (i : Instr) : Opcode :=
  match i with
  | .init _ _ => .init
  | .reset => .reset
  | .cfg _ _ _ _ => .cfg
  | .proc _ => .proc
  | .rdreg _ => .rdreg

end Sys2Proof
end

