-- ==== Sys2Proof/Machine/State.lean ====
section
/-! DEFINITION. Everything the spec gives the machine (10_state.md), the two streams that join it to its host
(20_memory.md R41), the power-on reset, and the reasons a step could stop. -/

namespace Sys2Proof.Machine

/-- `MODE` (R23). The code 3 is never held, so it has no constructor. -/
inductive Mode where
  | uninit
  | ready
  | fault
  deriving DecidableEq, Repr

/-- `ERR`, the cause of the spec's own fault (R24, R126). The codes 5 to 7 are never held. -/
inductive FaultCode where
  | none
  | config
  | illegal
  | state
  | addr
  deriving DecidableEq, Repr

/-- One smoother's five registers (R30 to R34). -/
structure Smoother where
  /-- `SM_CUR`, the last produced value (R32). -/
  cur : Word
  /-- `SM_TGT` (R33). -/
  tgt : Word
  /-- `SM_REM`, the remaining ramp steps (R30). -/
  rem : Word
  /-- `SM_STEP`, the addend or factor of each step (R34). -/
  step : Word
  /-- `SM_LAW` (R31). -/
  law : Law
  deriving DecidableEq, Repr

/-- The two state registers of one biquad stage (R35). -/
structure Stage where
  s1 : Word
  s2 : Word
  deriving DecidableEq, Repr

/-- The state of one channel's cascade of four stages (R35, R89). -/
structure Bank where
  st0 : Stage
  st1 : Stage
  st2 : Stage
  st3 : Stage
  deriving DecidableEq, Repr

/-- The state of the CORE. -/
structure State where
  /-- The constants of the instance, `COEF` among them (R36): no step writes them. -/
  params : Params
  /-- `MODE` (R23). -/
  mode : Mode
  /-- `ERR` (R24). -/
  err : FaultCode
  /-- `CURSOR`, the words taken from the command stream since power-on reset (R27). -/
  cursor : Nat
  /-- `NCH`, the negotiated channel count (R25). -/
  nch : Word
  /-- `FS`, the sample rate (R26). -/
  fs : Word
  /-- `FADE_START` (R28). -/
  fadeStart : Word
  /-- `FADE_END` (R28). -/
  fadeEnd : Word
  /-- `FADE_LEN` (R28). -/
  fadeLen : Word
  /-- `SIL_CNT`, the consecutive silent frames (R29). -/
  silCnt : Word
  /-- Smoother 0, the output gain (R30 to R34). -/
  gain : Smoother
  /-- Smoother 1, the distortion amount (R30 to R34). -/
  dist : Smoother
  /-- `S1[c][s]`, `S2[c][s]` for `c < MAXCH` (R35). -/
  banks : List Bank
  /-- Words of the command in progress that the CORE has taken and not yet used: the header and operands of
  an INIT or CFG that waits for more, or the samples of a frame that is not whole (R27, R144). The MODEL's. -/
  pending : List Word
  /-- Frames still to be processed of the PROC in progress; 0 between commands (R112, R144). The MODEL's. -/
  procLeft : Nat
  /-- The words the host has offered on the command stream and the CORE has not yet taken (R41). The MODEL's. -/
  input : List Word
  /-- The response stream: every word produced, oldest first (R41). The MODEL's. -/
  output : List Word
  /-- The power-on reset line (R139): `some k` when the host asserts it and it cuts the command that would run
  next after `k` of its response words (U9); `some 0` cuts before any. The MODEL's. -/
  por : Option Nat
  deriving DecidableEq, Repr

/-- Why a step could stop: NO REASON. Every error the spec names is its own fault, a next state with `MODE` and
`ERR` written (R126, R128), and every operation is total (R130); so this type has no constructor, and
that no step ever stops is a theorem. Safe. -/
inductive Fault where
  deriving DecidableEq, Repr

/-- Why a step could be refused. -/
inductive Refusal where
  /-- An instruction without a meaning in this model, raised by an arm of `exec` alone. Safe: a run stops where
  the hardware goes on. No arm of this model raises it. -/
  | notModelled (mnemonic : String)
  deriving DecidableEq, Repr

/-- A smoother after power-on reset: current and target at the default, no ramp (R39). -/
def Smoother.powerOn (value : Word) (law : Law) : Smoother :=
  { cur := value, tgt := value, rem := 0#32, step := 0#32, law := law }

/-- A stage in zero state: both registers +0.0 (R39, R87). -/
def Stage.zero : Stage := { s1 := 0#32, s2 := 0#32 }

/-- A cascade in zero state (R39, R91). -/
def Bank.zero : Bank := { st0 := Stage.zero, st1 := Stage.zero, st2 := Stage.zero, st3 := Stage.zero }

/-- An instance right after power-on reset (R39, R139), with nothing offered and nothing answered. -/
def State.powerOn (params : Params) : State :=
  { params := params
    mode := .uninit
    err := .none
    cursor := 0
    nch := 0#32
    fs := 0#32
    fadeStart := 0#32
    fadeEnd := 0#32
    fadeLen := 0#32
    silCnt := 0#32
    gain := Smoother.powerOn params.gDefault .log
    dist := Smoother.powerOn params.dDefault .lin
    banks := List.replicate params.maxch Bank.zero
    pending := []
    procLeft := 0
    input := []
    output := []
    por := none }

/-- The machine right after power-on reset (R39). -/
def State.reset : State := State.powerOn Config.params

end Sys2Proof.Machine
end

