-- ==== Sys2Proof/Machine/Flags.lean ====
section
/-! DEFINITION. The CORE has no condition-code register (R37): what it derives from its registers (the sideband,
the phase, the STATUS word) and the yes-or-no values of one frame. -/

namespace Sys2Proof.Machine

/-- The two bits of `MODE` (R23). -/
def modeBits (m : Mode) : BitVec 2 :=
  match m with
  | .uninit => 0#2
  | .ready => 1#2
  | .fault => 2#2

/-- The three bits of `ERR` (R24, R126). -/
def errBits (e : FaultCode) : BitVec 3 :=
  match e with
  | .none => 0#3
  | .config => 1#3
  | .illegal => 2#3
  | .state => 3#3
  | .addr => 4#3

/-- The sideband: `MODE` and `ERR`, visible in every mode, without a command and without an effect (R42). -/
def State.sideband (s : State) : BitVec 2 × BitVec 3 := (modeBits s.mode, errBits s.err)

/-- The phase of the silence-fade controller (R99). -/
inductive Phase where
  | active
  | fading
  | muted
  deriving DecidableEq, Repr

/-- The phase is a function of `SIL_CNT` and the thresholds (R99). -/
def State.phase (s : State) : Phase :=
  if s.silCnt.toNat < s.fadeStart.toNat then .active
  else if s.silCnt.toNat < s.fadeEnd.toNat then .fading
  else .muted

/-- The two bits of `PHASE` (R47). -/
def phaseBits (p : Phase) : BitVec 2 :=
  match p with
  | .active => 0#2
  | .fading => 1#2
  | .muted => 2#2

/-- The `STATUS` word: `MODE` in bits 1 to 0, `PHASE` in bits 3 to 2, zero above (R47). -/
def State.statusWord (s : State) : Word :=
  BitVec.ofNat 32 ((phaseBits s.phase).toNat * 4 + (modeBits s.mode).toNat)

/-- `z[c]`: the raw input sample is exactly zero; both zeros are (R103). -/
def sampleSilent (x : Word) : Bool := feq x posZero

/-- `allz`: every channel's raw sample of the frame is exactly zero (R103, R108 step 4). -/
def frameSilent (xs : List Word) : Bool := xs.all sampleSilent

/-- `eng`: the filter bank is in the path of this frame (R109). -/
def engaged (d : Word) : Bool := fgt d posZero

end Sys2Proof.Machine
end

