-- ==== Sys2Proof/Machine/Operands.lean ====
section
/-! DEFINITION. How a command names what it works on: a smoother by its index, a cascade by its channel, a stage
by its number. The CORE has no other operand form (R61, R67, R116). -/

namespace Sys2Proof.Machine

/-- The smoother that `P` names (R64, R72). -/
def State.smoother (s : State) (p : SmIdx) : Smoother :=
  match p with
  | .gain => s.gain
  | .dist => s.dist

/-- Write the registers of one smoother; the other keeps its own (R72). -/
def State.setSmoother (s : State) (p : SmIdx) (sm : Smoother) : State :=
  match p with
  | .gain => { s with gain := sm }
  | .dist => { s with dist := sm }

/-- The state of channel `c`'s cascade (R35). -/
def State.bank (s : State) (c : Nat) : Bank := s.banks.getD c Bank.zero

/-- The constants of a stage that no instance has. -/
def noCoef : Coef := { b0 := 0#32, b1 := 0#32, b2 := 0#32, a1 := 0#32, a2 := 0#32 }

/-- `COEF[c]` (R8, R36). -/
def State.bankCoef (s : State) (c : Nat) : BankCoef :=
  s.params.coef.getD c { k0 := noCoef, k1 := noCoef, k2 := noCoef, k3 := noCoef }

/-- Stage `s` of a cascade, 0 to 3 (R6). -/
def bankStage (b : Bank) (s : Nat) : Stage :=
  match s with
  | 0 => b.st0
  | 1 => b.st1
  | 2 => b.st2
  | _ => b.st3

/-- The constants of stage `s` of a cascade, 0 to 3 (R6). -/
def bankStageCoef (k : BankCoef) (s : Nat) : Coef :=
  match s with
  | 0 => k.k0
  | 1 => k.k1
  | 2 => k.k2
  | _ => k.k3

/-- Register `k` of a stage: 0 = `S1`, 1 = `S2` (R50). -/
def stageReg (st : Stage) (k : Nat) : Word :=
  match k with
  | 0 => st.s1
  | _ => st.s2

/-- Constant `j` of a stage: `b0`, `b1`, `b2`, `a1`, `a2`; 5 to 7 are unmapped (R51). -/
def coefReg (k : Coef) (j : Nat) : Option Word :=
  match j with
  | 0 => some k.b0
  | 1 => some k.b1
  | 2 => some k.b2
  | 3 => some k.a1
  | 4 => some k.a2
  | _ => none

/-- `SM_LAW` in bit 0 of a word (R31, R49). -/
def lawWord (l : Law) : Word :=
  match l with
  | .lin => 0#32
  | .log => 1#32

/-- Register `k` of a smoother: `SM_CUR`, `SM_TGT`, `SM_REM`, `SM_STEP`, `SM_LAW`; 5 to 7 are unmapped (R49). -/
def smootherReg (sm : Smoother) (k : Nat) : Option Word :=
  match k with
  | 0 => some sm.cur
  | 1 => some sm.tgt
  | 2 => some sm.rem
  | 3 => some sm.step
  | 4 => some (lawWord sm.law)
  | _ => none

end Sys2Proof.Machine
end

