-- ==== Sys2Proof/Machine/Ops.lean ====
section
/-! DEFINITION. The operations every command is made of: taking and answering words, `raise Fault(code)`, the
check of the mode, reading the register space, and the power-on reset as an event. -/

namespace Sys2Proof.Machine

/-- `In()` until the command at the front of the stream has `n` words; they leave the stream, and words that a
waiting command had already taken are not counted twice (R27, 00_scope.md section 5.3). -/
def State.takeWords (s : State) (n : Nat) : State :=
  { s with
    cursor := s.cursor + (n - s.pending.length)
    input := s.input.drop (n - s.pending.length)
    pending := [] }

/-- `In()` on every word that is offered, for a command that needs more of them: the CORE holds them and waits
(R144). -/
def State.awaitWords (s : State) : State :=
  { s with
    cursor := s.cursor + s.input.length
    input := []
    pending := s.pending ++ s.input }

/-- `Out(w)` for each word in turn (R41, R54). -/
def State.emit (s : State) (ws : List Word) : State := { s with output := s.output ++ ws }

/-- `raise Fault(code)` (R128): the mode and the code, and nothing else. There is no handler and no way back
but the power-on reset (R129). -/
def State.raiseFault (s : State) (code : FaultCode) : State := { s with mode := .fault, err := code }

/-- In `FAULT` the CORE takes the next word and throws it away (R129). -/
def State.discardWord (s : State) : State :=
  match s.input with
  | [] => s
  | _ :: rest => { s with cursor := s.cursor + 1, input := rest }

/-- The modes a command is allowed in (R69 step 3). -/
def allowedIn (op : Opcode) (m : Mode) : Bool :=
  match op, m with
  | .init, .uninit => true
  | .reset, .ready => true
  | .cfg, .ready => true
  | .proc, .ready => true
  | .rdreg, .uninit => true
  | .rdreg, .ready => true
  | _, _ => false

/-- The check of the mode, then the command: in `FAULT` nothing happens (R129), in a mode that does not allow
the command it raises `Fault(STATE)` (R69 step 3, R121). -/
def withMode (op : Opcode) (s : State) (run : State → Host.Outcome State Fault Refusal) :
    Host.Outcome State Fault Refusal :=
  if s.mode = .fault then .next s
  else if allowedIn op s.mode then run s
  else .next (s.raiseFault .state)

/-- Addresses 0x0000 to 0x0006 (R47, R48). -/
def controlReg (s : State) (addr : Nat) : Option Word :=
  match addr with
  | 0 => some s.statusWord
  | 1 => some s.nch
  | 2 => some s.fs
  | 3 => some s.fadeStart
  | 4 => some s.fadeEnd
  | 5 => some s.fadeLen
  | 6 => some s.silCnt
  | _ => none

/-- `S1[c][s]`, `S2[c][s]` at offset `8*c + 2*s + k` for `c < MAXCH` (R50). -/
def filterReg (s : State) (off : Nat) : Option Word :=
  if off / 8 < s.params.maxch then some (stageReg (bankStage (s.bank (off / 8)) (off % 8 / 2)) (off % 2))
  else none

/-- `COEF[c][s]` at offset `32*c + 8*s + j` for `c < MAXCH` (R51). -/
def coefRegAt (s : State) (off : Nat) : Option Word :=
  if off / 32 < s.params.maxch then coefReg (bankStageCoef (s.bankCoef (off / 32)) (off % 32 / 8)) (off % 8)
  else none

/-- `MemRead(addr, 4)`: the register space (R46 to R52); `none` at an unmapped address. -/
def memRead (s : State) (addr : Nat) : Option Word :=
  if addr < 0x10 then controlReg s addr
  else if addr < 0x18 then smootherReg s.gain (addr - 0x10)
  else if addr < 0x20 then smootherReg s.dist (addr - 0x18)
  else if addr < 0x1000 then none
  else if addr < 0x8000 then filterReg s (addr - 0x1000)
  else if addr < 0x10000 then coefRegAt s (addr - 0x8000)
  else none

/-- The response words that a step adds to the response stream. -/
def newOutput (s : State) (r : Host.Outcome State Fault Refusal) : List Word :=
  match r with
  | .next t => t.output.drop s.output.length
  | .fault _ => []
  | .refused _ => []

/-- The power-on reset as an event (R139, R140): every register at its power-on value, the words offered so far
lost, the responses already produced kept, and of the command it cuts the first `k` response words (U9). -/
def powerOnAfter (s : State) (k : Nat) (cut : Host.Outcome State Fault Refusal) : State :=
  { State.powerOn s.params with output := s.output ++ (newOutput s cut).take k }

end Sys2Proof.Machine
end

