-- ==== Sys2Proof/Machine/Fade.lean ====
section
/-! DEFINITION. The SilenceFadeController (43_silence_fade.md): `SF.THRESH`, `SF.GAIN`, `SF.UPDATE`. -/

namespace Sys2Proof.Machine

/-- `SF.THRESH(fs)` (R98). -/
def sfThresh (fs : Word) (s : State) : State :=
  { s with
    fadeStart := ms2n s.params.fadeStartMs fs
    fadeEnd := ms2n s.params.fadeEndMs fs
    fadeLen := ms2n s.params.fadeEndMs fs - ms2n s.params.fadeStartMs fs }

/-- The fade multiplier `m` (R100): the difference first, then the conversions, then the two operations. -/
def fadeMultiplier (s : State) : Word :=
  fsub one (fdiv (u2f (s.silCnt - s.fadeStart)) (u2f s.fadeLen))

/-- What the phase makes of one shaped sample (R100): Muted writes +0.0 whatever the sample is. -/
def fadeSample (s : State) (y : Word) : Word :=
  match s.phase with
  | .active => y
  | .fading => fmul y (fadeMultiplier s)
  | .muted => posZero

/-- `SF.GAIN(y)`: the phase applied to every shaped sample of a frame; no register written (R100). -/
def sfGain (s : State) (ys : List Word) : List Word := ys.map (fadeSample s)

/-- `SF.UPDATE(allz)`: the counter, saturating at `FADE_END` (R101). -/
def sfUpdate (allz : Bool) (s : State) : State :=
  { s with silCnt := if allz then BitVec.ofNat 32 (min (s.silCnt.toNat + 1) s.fadeEnd.toNat) else 0#32 }

end Sys2Proof.Machine
end

