-- ==== Sys2Proof/Machine/Filter.lean ====
section
/-! DEFINITION. BiquadFilterStage and FilterBank (41_biquad_filterbank.md): transposed direct form II, four
stages in cascade for each channel. -/

namespace Sys2Proof.Machine

/-- The output of `BQ.PROC` (R86, first line). -/
def bqOut (k : Coef) (st : Stage) (x : Word) : Word := fadd (fmul k.b0 x) st.s1

/-- The state after `BQ.PROC` (R86, second and third line): both use the output `y`, and the new `S1` the old
`S2`. -/
def bqNext (k : Coef) (st : Stage) (x : Word) : Stage :=
  { s1 := fadd (fsub (fmul k.b1 x) (fmul k.a1 (bqOut k st x))) st.s2
    s2 := fsub (fmul k.b2 x) (fmul k.a2 (bqOut k st x)) }

/-- What reaches stage 1 of the cascade (R90). -/
def fbTap1 (k : BankCoef) (b : Bank) (x : Word) : Word := bqOut k.k0 b.st0 x
/-- What reaches stage 2 of the cascade (R90). -/
def fbTap2 (k : BankCoef) (b : Bank) (x : Word) : Word := bqOut k.k1 b.st1 (fbTap1 k b x)
/-- What reaches stage 3 of the cascade (R90). -/
def fbTap3 (k : BankCoef) (b : Bank) (x : Word) : Word := bqOut k.k2 b.st2 (fbTap2 k b x)

/-- The output of `FB.PROC`: the sample through all four stages in order (R90). -/
def fbOut (k : BankCoef) (b : Bank) (x : Word) : Word := bqOut k.k3 b.st3 (fbTap3 k b x)

/-- The state of the cascade after `FB.PROC` (R90). -/
def fbNext (k : BankCoef) (b : Bank) (x : Word) : Bank :=
  { st0 := bqNext k.k0 b.st0 x
    st1 := bqNext k.k1 b.st1 (fbTap1 k b x)
    st2 := bqNext k.k2 b.st2 (fbTap2 k b x)
    st3 := bqNext k.k3 b.st3 (fbTap3 k b x) }

/-- The filtered samples of a frame, each channel through its own cascade (R90, R111). -/
def filterFrame (s : State) (xs : List Word) : List Word :=
  xs.mapIdx fun c x => fbOut (s.bankCoef c) (s.bank c) x

/-- The cascade of channel `c` after a frame; channels without a sample keep theirs (R90, R111). -/
def bankAfter (s : State) (xs : List Word) (c : Nat) (b : Bank) : Bank :=
  match xs[c]? with
  | some x => fbNext (s.bankCoef c) b x
  | none => b

/-- The cascades after an engaged frame (R90). -/
def advanceBanks (s : State) (xs : List Word) : State :=
  { s with banks := s.banks.mapIdx (bankAfter s xs) }

/-- `BQ.RST` on a stage: both registers +0.0 (R87). -/
def bqReset (_st : Stage) : Stage := { s1 := posZero, s2 := posZero }

/-- `BQ.RST` on each of the four stages of a cascade (R87, R91). -/
def fbReset (b : Bank) : Bank :=
  { st0 := bqReset b.st0, st1 := bqReset b.st1, st2 := bqReset b.st2, st3 := bqReset b.st3 }

/-- `FB.RSTALL()`: the cascades of the channels in use (R91). -/
def resetBanks (s : State) : State :=
  { s with banks := s.banks.mapIdx fun c b => if c < s.nch.toNat then fbReset b else b }

end Sys2Proof.Machine
end

