-- ==== Sys2Proof/Machine/Shaper.lean ====
section
/-! DEFINITION. The Waveshaper (42_waveshaper.md). -/

namespace Sys2Proof.Machine

/-- The sign of a sample: +1.0 for both zeros, -1.0 for a NaN (R94, R96). -/
def shapeSign (v : Word) : Word := if fge v posZero then one else negOne

/-- `WS.SHAPE(v, g)`: the hard clip (R94). -/
def wsShape (g v : Word) : Word := fmul (shapeSign v) g

end Sys2Proof.Machine
end

