-- ==== Sys2Proof/Machine/Smoother.lean ====
section
/-! DEFINITION. The ParameterSmoother (40_smoother.md): `SM.NEXT`, `SM.PEEK`, CFG. -/

namespace Sys2Proof.Machine

/-- `step_lin(start, target, n)` (R75). -/
def stepLin (start target n : Word) : Word := fdiv (fsub target start) (u2f n)

/-- `step_log(start, target, n)` (R76), with the open parameter `POWF` (R11). -/
def stepLog (start target n : Word) : Word := Config.powf (fdiv target start) (fdiv one (u2f n))

/-- The registers of a smoother after `SM.NEXT` (R77): the last step of a ramp, and every step after it, writes
the target itself. -/
def smNext (sm : Smoother) : Smoother :=
  if sm.rem.toNat ≤ 1 then { sm with cur := sm.tgt, rem := 0#32 }
  else
    match sm.law with
    | .lin => { sm with cur := fadd sm.cur sm.step, rem := sm.rem - 1#32 }
    | .log => { sm with cur := fmul sm.cur sm.step, rem := sm.rem - 1#32 }

/-- `SM.NEXT(p)` on the state (R77); the value it returns is the new `SM_CUR[p]`. -/
def smAdvance (p : SmIdx) (s : State) : State := s.setSmoother p (smNext (s.smoother p))

/-- `SM.PEEK(p)`: the last produced value, nothing written (R78). -/
def smPeek (p : SmIdx) (s : State) : Word := (s.smoother p).cur

/-- `SM_STEP` of a new ramp of `n` steps (R74): no division when there is no step. -/
def rampStep (law : Law) (start target n : Word) : Word :=
  if n = 0#32 then posZero
  else
    match law with
    | .lin => stepLin start target n
    | .log => stepLog start target n

/-- The registers of a smoother after CFG (R74): the ramp starts from the value the smoother holds now. -/
def smConfigure (fs : Word) (law : Law) (target rampMs : Word) (sm : Smoother) : Smoother :=
  { cur := sm.cur
    tgt := target
    rem := ms2n rampMs fs
    step := rampStep law sm.cur target (ms2n rampMs fs)
    law := law }

/-- CFG (R74): a new target and a new ramp for one smoother; needs `READY`. -/
def execCfg (p : SmIdx) (law : Law) (target rampMs : Word) (s : State) : Host.Outcome State Fault Refusal :=
  withMode .cfg s fun s => .next (s.setSmoother p (smConfigure s.fs law target rampMs (s.smoother p)))

end Sys2Proof.Machine
end

