-- ==== Sys2Proof/Machine/Pipeline.lean ====
section
/-! DEFINITION. The SignalPipeline (44_pipeline.md): `PL.FRAME` and PROC. -/

namespace Sys2Proof.Machine

/-- The output gain `g` of a frame: the gain smoother advanced once, before it is used (R108 step 1, R146). -/
def frameGain (s : State) : Word := (smAdvance .gain s).gain.cur

/-- Whether the frame is engaged: the distortion value of the frame before (R108 step 2, R109). -/
def frameEngaged (s : State) : Bool := engaged (smPeek .dist s)

/-- The samples that reach the waveshaper (R108 step 3). -/
def frameFiltered (s : State) (xs : List Word) : List Word :=
  if frameEngaged s then filterFrame s xs else xs

/-- The output samples of a frame: shaped with the one gain, then faded by the phase as `SIL_CNT` stands before
this frame (R108 steps 3 and 5, R102). -/
def frameOut (s : State) (xs : List Word) : List Word :=
  sfGain s ((frameFiltered s xs).map (wsShape (frameGain s)))

/-- The cascades after a frame: they move only when engaged (R92, R108). -/
def frameBanks (s : State) (xs : List Word) : State :=
  if frameEngaged s then advanceBanks s xs else s

/-- The state after `PL.FRAME`: both smoothers advanced once, the cascades, then the silence counter (R108,
R110). -/
def frameNext (s : State) (xs : List Word) : State :=
  sfUpdate (frameSilent xs) (smAdvance .dist (smAdvance .gain (frameBanks s xs)))

/-- Take the `NCH` samples of one frame, process it and answer it (R112). -/
def procFrame (s : State) : State :=
  (frameNext (s.takeWords s.nch.toNat) ((s.pending ++ s.input).take s.nch.toNat)).emit
    (frameOut s ((s.pending ++ s.input).take s.nch.toNat))

/-- The loop of PROC over `n` frames (R112): it waits inside the command where the words of a frame are not all
there yet (R144). -/
def procFrames (n : Nat) (s : State) : State :=
  match n with
  | 0 => { s with procLeft := 0 }
  | k + 1 =>
    if s.nch.toNat ≤ (s.pending ++ s.input).length then procFrames k (procFrame s)
    else { s.awaitWords with procLeft := k + 1 }

/-- PROC (R112): a block of `n` frames from the command stream; needs `READY`. -/
def execProc (n : Nat) (s : State) : Host.Outcome State Fault Refusal :=
  withMode .proc s fun s => .next (procFrames n s)

end Sys2Proof.Machine
end

