-- ==== Sys2Proof/Machine/SystemCommands.lean ====
section
/-! DEFINITION. The system commands (45_system.md): INIT, RESET, RDREG. -/

namespace Sys2Proof.Machine

/-- The four checks of INIT, all with the code `CONFIG` (R120, R126). -/
def configRefused (maxch nch : Nat) (fs : Word) : Bool :=
  decide (nch = 0) || decide (maxch < nch) || !fgt fs posZero || decide (fs = posInf)

/-- The effects of RESET: the cascades in use to zero, the silence counter to `FADE_END` (R122, R104). -/
def resetEffects (s : State) : State :=
  { resetBanks s with silCnt := s.fadeEnd }

/-- The effects of an INIT that is not refused, in the order of R120. -/
def initEffects (nch : Nat) (fs : Word) (s : State) : State :=
  { resetEffects (sfThresh fs { s with nch := BitVec.ofNat 32 nch, fs := fs }) with mode := .ready }

/-- INIT (R120, R121): needs `UNINIT`. -/
def execInit (nch : Nat) (fs : Word) (s : State) : Host.Outcome State Fault Refusal :=
  withMode .init s fun s =>
    .next (if configRefused s.params.maxch nch fs then s.raiseFault .config else initEffects nch fs s)

/-- RESET (R122): needs `READY`. -/
def execReset (s : State) : Host.Outcome State Fault Refusal :=
  withMode .reset s fun s => .next (resetEffects s)

/-- RDREG (R124): one response word, or `Fault(ADDR)` and none. -/
def execRdreg (addr : Nat) (s : State) : Host.Outcome State Fault Refusal :=
  withMode .rdreg s fun s =>
    match memRead s addr with
    | some w => .next (s.emit [w])
    | none => .next (s.raiseFault .addr)

end Sys2Proof.Machine
end

