-- ==== Sys2Proof/Machine/Dispatch.lean ====
section
/-! DEFINITION. One arm for each command. -/

namespace Sys2Proof.Machine

def exec (i : Instr) (s : State) : Host.Outcome State Fault Refusal :=
  match i with
  | .init nch fs => Sys2Proof.Machine.execInit nch fs s
  | .reset => Sys2Proof.Machine.execReset s
  | .cfg p law target rampMs => Sys2Proof.Machine.execCfg p law target rampMs s
  | .proc n => Sys2Proof.Machine.execProc n s
  | .rdreg addr => Sys2Proof.Machine.execRdreg addr s

end Sys2Proof.Machine
end

