-- ==== Sys2Proof/WellFormed.lean ====
section
/-! DEFINITION. Which commands can be written in a header: the count or address field `N` has 16 bits. -/

namespace Sys2Proof

/-- The field `N` of the header holds 0 to 65535 (R60, R62, R65, R66). Every operand word is legal (R61). -/
def Instr.wellFormed (i : Instr) : Bool :=
  match i with
  | .init nch _ => decide (nch < 2 ^ 16)
  | .reset => true
  | .cfg _ _ _ _ => true
  | .proc n => decide (n < 2 ^ 16)
  | .rdreg addr => decide (addr < 2 ^ 16)

end Sys2Proof
end

