-- ==== Sys2Proof/Decode.lean ====
section
/-! DEFINITION. The decoder (30_encoding.md, R59 to R70), the byte layout of the streams (R43), and the encoder
written from the same encodings. -/

namespace Sys2Proof

/-- Why the words at hand are not a command. -/
inductive DecodeError where
  /-- The stream offers no word. -/
  | noWord
  /-- The opcode is none of 0x01 to 0x05: `Fault(ILLEGAL)` (R69 step 1, R70). -/
  | reservedOpcode
  /-- A must-be-zero field of this opcode is not zero: `Fault(ILLEGAL)` (R69 step 2, R70). -/
  | reservedField (op : Opcode)
  /-- The header is sound and operand words are still to come: the CORE waits for them (R144). -/
  | truncated (op : Opcode)
  deriving DecidableEq, Repr

/-- `w[hi:lo]`, read as an unsigned integer (00_scope.md section 5.1). -/
def bits (w : Word) (hi lo : Nat) : Nat := w.toNat / 2 ^ lo % 2 ^ (hi - lo + 1)

/-- The opcode map (R62 to R66); every other code is reserved (R70). -/
def opcodeOf (code : Nat) : Option Opcode :=
  match code with
  | 1 => some .init
  | 2 => some .reset
  | 3 => some .cfg
  | 4 => some .proc
  | 5 => some .rdreg
  | _ => none

/-- The field `OPC` of each opcode (R62 to R66). -/
def opcodeCode (op : Opcode) : Nat :=
  match op with
  | .init => 1
  | .reset => 2
  | .cfg => 3
  | .proc => 4
  | .rdreg => 5

/-- Whether the must-be-zero fields of this opcode are zero (R69 step 2). -/
def reservedFieldsZero (op : Opcode) (h : Word) : Bool :=
  match op with
  | .init => bits h 23 16 == 0
  | .reset => bits h 23 16 == 0 && bits h 15 0 == 0
  | .cfg => bits h 23 18 == 0 && bits h 15 0 == 0
  | .proc => bits h 23 16 == 0
  | .rdreg => bits h 23 16 == 0

/-- `P` is `header[16]` (R64, R67). -/
def smIdxOfBit (b : Nat) : SmIdx := if b = 0 then .gain else .dist

/-- `LAW` is `header[17]` (R64, R67). -/
def lawOfBit (b : Nat) : Law := if b = 0 then .lin else .log

/-- The bit that stands for a smoother index (R64). -/
def smIdxBit (p : SmIdx) : Nat :=
  match p with
  | .gain => 0
  | .dist => 1

/-- The bit that stands for a law (R64). -/
def lawBit (l : Law) : Nat :=
  match l with
  | .lin => 0
  | .log => 1

/-- The two checks of a header word that come before any other (R69 steps 1 and 2), in their order. -/
def decodeHeader (h : Word) : Except DecodeError Opcode :=
  match opcodeOf (bits h 31 24) with
  | none => .error .reservedOpcode
  | some op => if reservedFieldsZero op h then .ok op else .error (.reservedField op)

/-- The command of a sound header and its operand words, with the words that follow it (R62 to R67); `none`
while operand words are missing. -/
def withOperands (op : Opcode) (h : Word) (ops : List Word) : Option (Instr × List Word) :=
  match op, ops with
  | .init, fs :: rest => some (.init (bits h 15 0) fs, rest)
  | .reset, rest => some (.reset, rest)
  | .cfg, target :: rampMs :: rest =>
      some (.cfg (smIdxOfBit (bits h 16 16)) (lawOfBit (bits h 17 17)) target rampMs, rest)
  | .proc, rest => some (.proc (bits h 15 0), rest)
  | .rdreg, rest => some (.rdreg (bits h 15 0), rest)
  | _, _ => none

/-- Decode one command from the words of the command stream: total, rejecting by name. The samples of a PROC
are among the words that follow it. -/
def decode (ws : List Word) : Except DecodeError (Instr × List Word) :=
  match ws with
  | [] => .error .noWord
  | h :: ops =>
    match decodeHeader h with
    | .error e => .error e
    | .ok op =>
      match withOperands op h ops with
      | none => .error (.truncated op)
      | some r => .ok r

/-- How many words decoding takes: the header, and the operand words of INIT and CFG (R68). -/
def decodedLength (i : Instr) : Nat :=
  match i with
  | .init _ _ => 2
  | .reset => 1
  | .cfg _ _ _ _ => 3
  | .proc _ => 1
  | .rdreg _ => 1

/-- The length of a command in words, header and samples included, when the register `NCH` holds `nch` (R68). -/
def commandLength (nch : Nat) (i : Instr) : Nat :=
  match i with
  | .init _ _ => 2
  | .reset => 1
  | .cfg _ _ _ _ => 3
  | .proc n => 1 + n * nch
  | .rdreg _ => 1

/-- A word from the fields of header format H (R60). -/
def headerWord (opc arg n : Nat) : Word := BitVec.ofNat 32 (opc * 2 ^ 24 + arg * 2 ^ 16 + n)

/-- The encoder: the words of a command (R62 to R66), the samples of a PROC left out. -/
def encode (i : Instr) : List Word :=
  match i with
  | .init nch fs => [headerWord 1 0 nch, fs]
  | .reset => [headerWord 2 0 0]
  | .cfg p law target rampMs => [headerWord 3 (2 * lawBit law + smIdxBit p) 0, target, rampMs]
  | .proc n => [headerWord 4 0 n]
  | .rdreg addr => [headerWord 5 0 addr]

/-- The words of a PROC with its block: the header, then the frames in order, channel 0 first (R65). -/
def encodeBlock (frames : List (List Word)) : List Word :=
  encode (.proc frames.length) ++ frames.flatten

/-- The four bytes of a word, bits 7 to 0 first (R43). -/
def wordBytes (w : Word) : List Byte :=
  [BitVec.ofNat 8 w.toNat, BitVec.ofNat 8 (w.toNat / 2 ^ 8),
   BitVec.ofNat 8 (w.toNat / 2 ^ 16), BitVec.ofNat 8 (w.toNat / 2 ^ 24)]

/-- A stream laid out as bytes, each word little-endian (R43). -/
def streamBytes (ws : List Word) : List Byte :=
  match ws with
  | [] => []
  | w :: rest => wordBytes w ++ streamBytes rest

/-- The words of a byte layout (R43); bytes short of a whole word make no transfer (R43, R44). -/
def streamWords (bs : List Byte) : List Word :=
  match bs with
  | b0 :: b1 :: b2 :: b3 :: rest =>
      BitVec.ofNat 32 (b0.toNat + b1.toNat * 2 ^ 8 + b2.toNat * 2 ^ 16 + b3.toNat * 2 ^ 24) :: streamWords rest
  | _ => []

/-- Decode a command from a byte layout of the command stream: total on any bytes. -/
def decodeBytes (bs : List Byte) : Except DecodeError (Instr × List Word) := decode (streamWords bs)

/-- The `n` bytes of a number, least significant first. -/
def leBytes (n w : Nat) : List Byte :=
  match n with
  | 0 => []
  | k + 1 => BitVec.ofNat 8 w :: leBytes k (w / 2 ^ 8)

/-- The bytes of a table instruction: `nbits` bits of `w`, least significant byte first, then zeros up to the
longest header and operand words (CFG's three words). -/
def tableBytes (nbits w : Nat) : List Byte :=
  leBytes ((nbits + 7) / 8) (w % 2 ^ nbits) ++ List.replicate (12 - (nbits + 7) / 8) 0#8

/-- The instruction this decoder reads from a table instruction (the host's numbering of the bits is the same:
the first word least significant). -/
def decodeTableWord (nbits w : Nat) : Option Instr :=
  match decodeBytes (tableBytes nbits w) with
  | .ok r => some r.1
  | .error _ => none

end Sys2Proof
end

