-- ==== Sys2Proof/Machine/Fetch.lean ====
section
/-! DEFINITION. What the CORE does with the front of the command stream before a command runs (R69): it discards,
goes on with a PROC that waited, faults at decode, waits for operand words, or hands over a command. -/

namespace Sys2Proof.Machine

/-- What the front of the command stream comes to. -/
inductive Fetched where
  /-- Settled without a command being started. -/
  | settled (s : State)
  /-- This command runs from this state, its header and operand words taken. -/
  | run (i : Instr) (s : State)
  deriving DecidableEq, Repr

/-- A sound header of a command that the mode allows: take its operand words, or wait for them (R69 step 4,
R144). -/
def fetchOperands (op : Opcode) (h : Word) (ops : List Word) (s : State) : Fetched :=
  match withOperands op h ops with
  | some r => .run r.1 (s.takeWords (decodedLength r.1))
  | none => .settled s.awaitWords

/-- Decode at a header word, in the order of R69; a header that faults has length one (R68). -/
def fetchHeader (h : Word) (ops : List Word) (s : State) : Fetched :=
  match decodeHeader h with
  | .error _ => .settled ((s.takeWords 1).raiseFault .illegal)
  | .ok op =>
    if allowedIn op s.mode then fetchOperands op h ops s
    else .settled ((s.takeWords 1).raiseFault .state)

/-- Between commands the CORE idles when no word is offered (R138). -/
def fetchCommand (s : State) : Fetched :=
  match s.pending ++ s.input with
  | [] => .settled s
  | h :: ops => fetchHeader h ops s

/-- The front of the command stream (R69, R129, R144). -/
def fetch (s : State) : Fetched :=
  if s.mode = .fault then .settled s.discardWord
  else if s.procLeft = 0 then fetchCommand s
  else .settled (procFrames s.procLeft s)

/-- The words of a table instruction, as the decoder is given them: `nbits` bits of `w`, then zeros. -/
def tableWords (nbits w : Nat) : List Word := streamWords (tableBytes nbits w)

/-- The words of a table instruction and no more: what the decoder makes of them fixes how many they are, a PROC
with `NCH = nch` getting samples of zeros (R68). -/
def instructionWords (nch nbits w : Nat) : List Word :=
  match decode (tableWords nbits w) with
  | .ok r =>
      (tableWords nbits w).take (decodedLength r.1)
        ++ List.replicate (commandLength nch r.1 - decodedLength r.1) 0#32
  | .error _ => (tableWords nbits w).take 1

end Sys2Proof.Machine
end

