-- ==== Sys2Proof/Machine/Step.lean ====
section
/-! DEFINITION. One step: one command to completion (R152), or what stands in its place at the front of the
command stream, or the power-on reset. -/

namespace Sys2Proof.Machine

/-- One step without the power-on reset. -/
def commandStep (s : State) : Host.Outcome State Fault Refusal :=
  match fetch s with
  | .settled t => .next t
  | .run i t => exec i t

/-- One step (R69, R139). -/
def step (s : State) : Host.Outcome State Fault Refusal :=
  match s.por with
  | none => commandStep s
  | some k => .next (powerOnAfter s k (commandStep s))

/-- The state with one table instruction, and nothing else, as the next command of the stream: the reset line is
low and no command is in progress (log entry 8). -/
def State.withFetchWord (s : State) (nbits w : Nat) : State :=
  { s with
    pending := []
    procLeft := 0
    input := instructionWords s.nch.toNat nbits w
    por := none }

end Sys2Proof.Machine
end

