-- ==== Sys2Proof/Safety.lean ====
section
/-! DEFINITION. What counts as a sound state and a safe run, in the terms the statements use. -/

namespace Sys2Proof.Machine

/-- The duties of R7, R8 and R9 on the constants of an instance: `1 <= MAXCH <= 1024`, one set of coefficients
for each channel, and `0 <= FADE_START_MS <= FADE_END_MS`, both finite. -/
def paramsSound (p : Params) : Bool :=
  decide (1 ≤ p.maxch) && decide (p.maxch ≤ 1024) && decide (p.coef.length = p.maxch)
    && fge p.fadeStartMs posZero && fge p.fadeEndMs p.fadeStartMs && isFinite p.fadeEndMs

/-- The ranges the host owes for the two control targets (R12): the CORE does not check them. -/
def targetInRange (p : SmIdx) (target : Word) : Bool :=
  match p with
  | .gain => fge target 0x3D813856#32 && fge one target
  | .dist => fge target posZero && fge one target

/-- Every cascade from channel `n` on is in zero state. -/
def banksZeroFrom (n : Nat) (bs : List Bank) : Bool := (bs.drop n).all fun b => decide (b = Bank.zero)

/-- `MODE` and `ERR` agree: a code is held in `FAULT` and only there (R23, R24). -/
def errAgrees (s : State) : Bool :=
  match s.mode, s.err with
  | .fault, .none => false
  | .fault, _ => true
  | _, .none => true
  | _, _ => false

/-- In `UNINIT` no command has written a register: all but `CURSOR` hold their power-on values (R39, R69). -/
def uninitUntouched (s : State) : Bool :=
  decide (s.mode = .uninit →
    s.nch = 0#32 ∧ s.fs = 0#32 ∧ s.fadeStart = 0#32 ∧ s.fadeEnd = 0#32 ∧ s.fadeLen = 0#32 ∧ s.silCnt = 0#32
      ∧ s.gain = Smoother.powerOn s.params.gDefault .log ∧ s.dist = Smoother.powerOn s.params.dDefault .lin
      ∧ s.procLeft = 0)

/-- Once `READY`, the channel count and the sample rate are what INIT accepts (R25, R26). -/
def readyAccepted (s : State) : Bool :=
  decide (s.mode = .ready → 1 ≤ s.nch.toNat ∧ fgt s.fs posZero = true ∧ s.fs ≠ posInf)

/-- A command in progress holds fewer words than it needs (R144): a PROC less than a frame, in `READY`; an INIT
or CFG less than its three words. -/
def progressSound (s : State) : Bool :=
  if s.procLeft = 0 then decide (s.pending.length ≤ 2)
  else decide (s.mode = .ready) && decide (s.pending.length < s.nch.toNat)

/-- The invariant of the machine: the constants are sound, the arrays have their sizes (R25, R35), the channels
not in use are at zero (R50, R91), the silence counter has not passed its bound (R29), `FADE_LEN` is the
difference of the thresholds (R28), and the four conditions above. -/
def State.sound (s : State) : Prop :=
  paramsSound s.params = true
    ∧ s.banks.length = s.params.maxch
    ∧ s.nch.toNat ≤ s.params.maxch
    ∧ banksZeroFrom s.nch.toNat s.banks = true
    ∧ s.silCnt.toNat ≤ s.fadeEnd.toNat
    ∧ s.fadeLen = s.fadeEnd - s.fadeStart
    ∧ errAgrees s = true
    ∧ uninitUntouched s = true
    ∧ readyAccepted s = true
    ∧ progressSound s = true

/-- The order of the thresholds, by itself because it rests on the arithmetic of `ms2n` (R28, R98). -/
def State.thresholdsOrdered (s : State) : Prop := s.fadeStart.toNat ≤ s.fadeEnd.toNat

/-- A run that has not ended in `FAULT` (R129: a faulted state is never final). -/
def State.healthy (s : State) : Prop := s.mode ≠ .fault

/-- No command is in progress (R38). -/
def State.betweenCommands (s : State) : Prop := s.pending = [] ∧ s.procLeft = 0

/-- The state after some frames, one after the other (R108, R112). -/
def framesAfter (s : State) (frames : List (List Word)) : State :=
  match frames with
  | [] => s
  | xs :: rest => framesAfter (frameNext s xs) rest

/-- The output samples of some frames, in order (R112). -/
def framesOut (s : State) (frames : List (List Word)) : List Word :=
  match frames with
  | [] => []
  | xs :: rest => frameOut s xs ++ framesOut (frameNext s xs) rest

/-- Every frame has one sample for each of `n` channels (R111). -/
def framesFit (n : Nat) (frames : List (List Word)) : Prop := ∀ xs ∈ frames, xs.length = n

/-- A cascade whose eight registers all hold a NaN (R88, R150). -/
def bankPoisoned (b : Bank) : Bool :=
  isNaN b.st0.s1 && isNaN b.st0.s2 && isNaN b.st1.s1 && isNaN b.st1.s2
    && isNaN b.st2.s1 && isNaN b.st2.s2 && isNaN b.st3.s1 && isNaN b.st3.s2

/-- The addresses that no rule of the register-space map names, for an instance with `maxch` channels (R52). -/
def unmappedAddr (maxch a : Nat) : Prop :=
  (0x7 ≤ a ∧ a ≤ 0xF) ∨ (0x15 ≤ a ∧ a ≤ 0x17) ∨ (0x1D ≤ a ∧ a ≤ 0xFFF)
    ∨ (0x1000 + 8 * maxch ≤ a ∧ a ≤ 0x7FFF)
    ∨ (0x8000 ≤ a ∧ a < 0x8000 + 32 * maxch ∧ 5 ≤ a % 8)
    ∨ (0x8000 + 32 * maxch ≤ a ∧ a ≤ 0xFFFF)

end Sys2Proof.Machine
end

