-- ==== Sys2Proof/Certificates/Slice0/Obligations.lean ====
section
/-! DEFINITION. The statements for the provers. Each docstring names the rule of spec/ that it formalises. -/

open Sys2Proof Sys2Proof.Machine

/-! ## Reset and start-up -/

/-- R39, R10: after power-on reset every register of an instance holds the value of the table in 10_state.md; the
machine's own reset is that of the instance at hand, with the gain at 1.0 and the distortion at 0.0. -/
def Obligations.PowerOnResetValues : Prop :=
  (∀ p : Params,
    (State.powerOn p).mode = .uninit ∧ (State.powerOn p).err = .none ∧ (State.powerOn p).cursor = 0
      ∧ (State.powerOn p).nch = 0#32 ∧ (State.powerOn p).fs = 0#32
      ∧ (State.powerOn p).fadeStart = 0#32 ∧ (State.powerOn p).fadeEnd = 0#32 ∧ (State.powerOn p).fadeLen = 0#32
      ∧ (State.powerOn p).silCnt = 0#32
      ∧ (State.powerOn p).gain = { cur := p.gDefault, tgt := p.gDefault, rem := 0#32, step := 0#32, law := .log }
      ∧ (State.powerOn p).dist = { cur := p.dDefault, tgt := p.dDefault, rem := 0#32, step := 0#32, law := .lin }
      ∧ (State.powerOn p).banks.length = p.maxch
      ∧ (∀ c, c < p.maxch → ∀ st, st < 4 →
          bankStage ((State.powerOn p).bank c) st = { s1 := 0#32, s2 := 0#32 })
      ∧ (State.powerOn p).params = p)
  ∧ State.reset = State.powerOn Config.params
  ∧ State.reset.gain.cur = 0x3F800000#32 ∧ State.reset.dist.cur = 0x00000000#32

/-- The invariant holds right after reset (R39 against R23 to R35), and no command is in progress (R38).
That the model's own fields start empty is the model's choice (log entries 4, 5 and 13). -/
def Obligations.ResetStateIsSound : Prop :=
  State.reset.sound ∧ State.reset.thresholdsOrdered ∧ State.reset.betweenCommands

/-- Every step keeps the invariant: array sizes and unused channels (R25, R35, R50), `SIL_CNT <= FADE_END` (R29),
`FADE_LEN = FADE_END - FADE_START` (R28), `MODE` and `ERR` agree (R23, R24), `UNINIT` is untouched (R39),
`READY` holds what INIT accepts (R25, R26), commands in progress hold less than they need (R144).
The last clause is about the model's own fields (log entry 5). -/
def Obligations.StepKeepsStateSound : Prop :=
  ∀ s t : State, s.sound → step s = .next t → t.sound

/-- R28, R98: every step keeps `FADE_START <= FADE_END`, for an instance whose constants obey R9. -/
def Obligations.StepKeepsThresholdsOrdered : Prop :=
  ∀ s t : State, paramsSound s.params = true → s.thresholdsOrdered → step s = .next t → t.thresholdsOrdered

/-! ## The command stream -/

/-- R69, R152: when the words that a waiting INIT or CFG holds, if any, and the words at the front of the stream decode
to a command and the mode allows it, the step is that command, run from the state in which the rest of its words
have been taken and none is held; it is well formed. So a command whose words come one at a time runs when the last
is there. That held words stand in a field, and were counted when they were taken, is the model's (log entry 5). -/
def Obligations.StepRunsDecodedCommand : Prop :=
  ∀ (s : State) (i : Instr) (rest : List Word),
    s.por = none → s.procLeft = 0 → decode (s.pending ++ s.input) = .ok (i, rest) →
    allowedIn i.opcode s.mode = true →
      i.wellFormed = true
      ∧ step s = exec i { s with
          pending := []
          cursor := s.cursor + (decodedLength i - s.pending.length)
          input := s.input.drop (decodedLength i - s.pending.length) }
      ∧ (s.pending.length ≤ decodedLength i → s.input.drop (decodedLength i - s.pending.length) = rest)

/-- R69, the order of the checks at a header word between commands: FAULT discards; a reserved opcode, then a
must-be-zero field, raises ILLEGAL; then the mode raises STATE; a faulting header has length one.
That a step in FAULT discards one word is the model's choice (log entry 6). -/
def Obligations.HeaderChecksInOrder : Prop :=
  ∀ (s : State) (h : Word) (ops : List Word), s.por = none → s.betweenCommands → s.input = h :: ops →
    (s.mode = .fault → step s = .next { s with cursor := s.cursor + 1, input := ops })
    ∧ (s.mode ≠ .fault → (h.toNat / 2 ^ 24 = 0 ∨ 5 < h.toNat / 2 ^ 24) →
        step s = .next { s with mode := .fault, err := .illegal, cursor := s.cursor + 1, input := ops })
    ∧ (s.mode ≠ .fault → (h.toNat / 2 ^ 24 = 1 ∨ h.toNat / 2 ^ 24 = 4 ∨ h.toNat / 2 ^ 24 = 5) →
        h.toNat / 2 ^ 16 % 2 ^ 8 ≠ 0 →
        step s = .next { s with mode := .fault, err := .illegal, cursor := s.cursor + 1, input := ops })
    ∧ (s.mode ≠ .fault → h.toNat / 2 ^ 24 = 2 → h.toNat % 2 ^ 24 ≠ 0 →
        step s = .next { s with mode := .fault, err := .illegal, cursor := s.cursor + 1, input := ops })
    ∧ (s.mode ≠ .fault → h.toNat / 2 ^ 24 = 3 → (h.toNat / 2 ^ 18 % 2 ^ 6 ≠ 0 ∨ h.toNat % 2 ^ 16 ≠ 0) →
        step s = .next { s with mode := .fault, err := .illegal, cursor := s.cursor + 1, input := ops })
    ∧ (∀ op, decodeHeader h = .ok op → s.mode ≠ .fault → allowedIn op s.mode = false →
        step s = .next { s with mode := .fault, err := .state, cursor := s.cursor + 1, input := ops })

/-- R62 to R66, R70: a header passes both checks of the encoding exactly where one row of the opcode table
matches it under its mask. -/
def Obligations.HeaderSoundExactlyByTableRow : Prop :=
  ∀ h : Word,
    (decodeHeader h = .ok .init ↔ h &&& 0xFFFF0000#32 = 0x01000000#32)
    ∧ (decodeHeader h = .ok .reset ↔ h &&& 0xFFFFFFFF#32 = 0x02000000#32)
    ∧ (decodeHeader h = .ok .cfg ↔ h &&& 0xFFFCFFFF#32 = 0x03000000#32)
    ∧ (decodeHeader h = .ok .proc ↔ h &&& 0xFFFF0000#32 = 0x04000000#32)
    ∧ (decodeHeader h = .ok .rdreg ↔ h &&& 0xFFFF0000#32 = 0x05000000#32)

/-- R62 to R67: decoding the words of a well-formed command gives it back, whatever follows it. -/
def Obligations.DecodeOfEncodeIsIdentity : Prop :=
  ∀ (i : Instr) (rest : List Word), i.wellFormed = true → decode (encode i ++ rest) = .ok (i, rest)

/-- R59 to R70: every command has one encoding, so words that decode are the encoding of what they decode to. -/
def Obligations.DecodedWordsAreTheEncoding : Prop :=
  ∀ (ws rest : List Word) (i : Instr), decode ws = .ok (i, rest) →
    i.wellFormed = true ∧ ws = encode i ++ rest

/-- Words written out from R62 to R66 and the programs of 95_test_vectors.md decode to their commands. -/
def Obligations.KnownWordsDecode : Prop :=
  decode [0x01000002#32, 0x473B8000#32] = .ok (.init 2 0x473B8000#32, [])
    ∧ decode [0x02000000#32] = .ok (.reset, [])
    ∧ decode [0x03010000#32, 0x3F800000#32, 0x41200000#32] = .ok (.cfg .dist .lin 0x3F800000#32 0x41200000#32, [])
    ∧ decode [0x03020000#32, 0x3E800000#32, 0x00000000#32] = .ok (.cfg .gain .log 0x3E800000#32 0x00000000#32, [])
    ∧ decode [0x0400000E#32] = .ok (.proc 14, [])
    ∧ decode [0x05000012#32] = .ok (.rdreg 0x12, [])
    ∧ decode [0x00000000#32] = .error .reservedOpcode
    ∧ decode [0xFFFFFFFF#32] = .error .reservedOpcode
    ∧ decode [0x03040000#32] = .error (.reservedField .cfg)

/-- R43: a stream laid out as bytes, bits 7 to 0 of each word first, reads back as the same words. -/
def Obligations.LittleEndianLayoutReadsBack : Prop :=
  ∀ ws : List Word, streamWords (streamBytes ws) = ws
    ∧ (streamBytes ws).length = 4 * ws.length
    ∧ ∀ k b, k < ws.length → b < 4 →
        (streamBytes ws)[4 * k + b]? = (ws[k]?).map fun w => BitVec.ofNat 8 (w.toNat / 2 ^ (8 * b))

/-- R27: without a power-on reset the cursor counts the words taken: what it gains the stream loses.
That a step can stop inside a command that lacks words is the model's reading (log entry 5). -/
def Obligations.CursorCountsWordsTaken : Prop :=
  ∀ s t : State, s.por = none → step s = .next t →
    s.cursor ≤ t.cursor ∧ t.cursor + t.input.length = s.cursor + s.input.length
      ∧ t.input = s.input.drop (t.cursor - s.cursor)

/-- R54 (d), R139: no step takes back or changes a response word. That State keeps every word produced is the
model's choice (log entry 4). -/
def Obligations.ResponsesOnlyGrow : Prop :=
  ∀ s t : State, step s = .next t → ∃ ws, t.output = s.output ++ ws

/-- R115, R130, R152: every step ends in a next state, from every state whatever. -/
def Obligations.EveryStepCompletes : Prop :=
  ∀ s : State, ∃ t, step s = .next t

/-- R144, U13: a PROC whose samples are not all there waits, and when the rest arrives the step goes on to the
state it would have reached with all of them there at once. The form of the waiting is the model's (log entry 5); on
runs with NaNs the equality rests on log entry 3. -/
def Obligations.WaitingProcResumesUnchanged : Prop :=
  ∀ (s u : State) (n : Nat) (early late : List Word),
    s.mode = .ready → s.betweenCommands → s.por = none → early.length < n * s.nch.toNat →
      exec (.proc n) { s with input := early } = .next u →
        u.mode = .ready ∧ 0 < u.procLeft ∧ u.input = []
          ∧ step { u with input := late } = exec (.proc n) { s with input := early ++ late }

/-- R69 step 4, R144: INIT and CFG take no effect before their operand words are there, whether the words so far are
offered together or one at a time: those offered are taken and held after those held already, and nothing else
changes. The form of the waiting is the model's (log entry 5). -/
def Obligations.OperandsAwaitedBeforeEffect : Prop :=
  ∀ (s : State) (h : Word), s.por = none → s.procLeft = 0 →
    (s.mode = .uninit → decodeHeader h = .ok .init → s.pending ++ s.input = [h] →
        step s = .next { s with cursor := s.cursor + s.input.length, input := [], pending := [h] })
    ∧ (s.mode = .ready → decodeHeader h = .ok .cfg →
        (s.pending ++ s.input = [h] →
            step s = .next { s with cursor := s.cursor + s.input.length, input := [], pending := [h] })
        ∧ ∀ target, s.pending ++ s.input = [h, target] →
            step s = .next { s with cursor := s.cursor + s.input.length, input := [], pending := [h, target] })

/-! ## Faults and the power-on reset -/

/-- R128, R126, R127: a command that ends in `FAULT` has written `MODE` and `ERR` and nothing else, with the code of
the first check that failed. -/
def Obligations.CommandFaultsArePrecise : Prop :=
  ∀ (i : Instr) (s t : State), s.mode ≠ .fault → exec i s = .next t → t.mode = .fault →
    ∃ code, t = { s with mode := .fault, err := code }
      ∧ ((code = .state ∧ allowedIn i.opcode s.mode = false)
        ∨ (code = .config ∧ s.mode = .uninit
            ∧ ∃ nch fs, i = .init nch fs
              ∧ (nch = 0 ∨ s.params.maxch < nch ∨ fgt fs posZero = false ∨ fs = posInf))
        ∨ (code = .addr ∧ ∃ a, i = .rdreg a ∧ memRead s a = none))

/-- R69 step 3, R121: a command in a mode that does not allow it raises STATE, whatever its operands: INIT in READY;
RESET, CFG and PROC in UNINIT. -/
def Obligations.WrongModeRaisesState : Prop :=
  ∀ s : State,
    (s.mode = .ready → ∀ nch fs, exec (.init nch fs) s = .next { s with mode := .fault, err := .state })
    ∧ (s.mode = .uninit →
        exec .reset s = .next { s with mode := .fault, err := .state }
        ∧ (∀ p l x r, exec (.cfg p l x r) s = .next { s with mode := .fault, err := .state })
        ∧ ∀ n, exec (.proc n) s = .next { s with mode := .fault, err := .state })

/-- R129: in `FAULT` any number of steps takes words and throws them away, and changes no register and no response.
One word a step is the model's choice (log entry 6). -/
def Obligations.FaultSwallowsEveryWord : Prop :=
  ∀ (n : Nat) (s : State), s.mode = .fault → s.por = none →
    Sys2Proof.core.run n s
      = .next ({ s with cursor := s.cursor + min n s.input.length, input := s.input.drop n } : State)

/-- R139, R140, U9: the power-on reset puts every register to its power-on value and loses the words offered; the
responses so far stay, with some of those of the command it cuts; the constants stay. Without it nothing
leaves `FAULT` and nothing goes back to `UNINIT`. The field `por` is the model's (log entry 10). -/
def Obligations.OnlyPowerOnLeavesFault : Prop :=
  (∀ (s : State) (k : Nat), s.por = some k →
      ∃ ws, step s = .next { State.powerOn s.params with output := s.output ++ ws } ∧ ws.length ≤ k)
  ∧ ∀ s t : State, s.por = none → step s = .next t →
      (s.mode = .fault → t.mode = .fault ∧ t.err = s.err) ∧ (t.mode = .uninit → s.mode = .uninit)

/-- U9: every number of the cut command's response words is possible, from none to all. The field `por` is the model's
(log entry 10). -/
def Obligations.PowerOnCutsAnywhere : Prop :=
  ∀ (s t : State) (k : Nat), s.por = none → step s = .next t →
    step { s with por := some k }
      = .next { State.powerOn s.params with output := s.output ++ (t.output.drop s.output.length).take k }

/-! ## INIT and RESET -/

/-- R120: INIT from `UNINIT` with operands it accepts: the new `NCH`, `FS` and thresholds, the cascades in use at
+0.0, `SIL_CNT = FADE_END`, `READY`; everything else as before. -/
def Obligations.InitEntersReady : Prop :=
  ∀ (s : State) (nch : Nat) (fs : Word),
    s.mode = .uninit → s.params.maxch ≤ 1024 → 1 ≤ nch → nch ≤ s.params.maxch → fgt fs posZero = true → fs ≠ posInf →
      ∃ bs,
        exec (.init nch fs) s
          = .next { s with
              mode := .ready
              nch := BitVec.ofNat 32 nch
              fs := fs
              fadeStart := ms2n s.params.fadeStartMs fs
              fadeEnd := ms2n s.params.fadeEndMs fs
              fadeLen := ms2n s.params.fadeEndMs fs - ms2n s.params.fadeStartMs fs
              silCnt := ms2n s.params.fadeEndMs fs
              banks := bs }
        ∧ bs.length = s.banks.length
        ∧ ∀ c b, s.banks[c]? = some b → bs[c]? = some (if c < nch then Bank.zero else b)

/-- R120, R126: INIT in `UNINIT` with no channel, with more than `MAXCH`, or with a sample rate that is not above
zero, NaN or infinite, raises CONFIG and writes nothing else. -/
def Obligations.InitRefusesBadConfiguration : Prop :=
  ∀ (s : State) (nch : Nat) (fs : Word), s.mode = .uninit →
    (nch = 0 ∨ s.params.maxch < nch ∨ isNaN fs = true ∨ fge posZero fs = true ∨ fs = posInf) →
      exec (.init nch fs) s = .next { s with mode := .fault, err := .config }

/-- R122: RESET in `READY`: the cascades in use at +0.0 and `SIL_CNT = FADE_END`; everything else, the smoothers
among it, as before. -/
def Obligations.ResetZeroesFilterAndMutes : Prop :=
  ∀ s : State, s.mode = .ready →
    ∃ bs, exec .reset s = .next { s with silCnt := s.fadeEnd, banks := bs }
      ∧ bs.length = s.banks.length
      ∧ ∀ c b, s.banks[c]? = some b → bs[c]? = some (if c < s.nch.toNat then Bank.zero else b)

/-- R123: RESET twice is RESET once, and RESET directly after an INIT that succeeded changes nothing. -/
def Obligations.ResetIsIdempotent : Prop :=
  (∀ s t : State, s.mode = .ready → exec .reset s = .next t → exec .reset t = .next t)
  ∧ ∀ (s t : State) (nch : Nat) (fs : Word), exec (.init nch fs) s = .next t → t.mode = .ready →
      exec .reset t = .next t

/-- R25, R28, R40: outside `UNINIT` and without a power-on reset no step writes the channel count, the sample rate or a
threshold. -/
def Obligations.SessionIsFixedByInit : Prop :=
  ∀ s t : State, s.por = none → s.mode ≠ .uninit → step s = .next t →
    t.nch = s.nch ∧ t.fs = s.fs ∧ t.fadeStart = s.fadeStart ∧ t.fadeEnd = s.fadeEnd ∧ t.fadeLen = s.fadeLen

/-- R36: no step, the power-on reset among them, changes a coefficient or another constant of the instance. -/
def Obligations.ConstantsNeverChange : Prop :=
  ∀ s t : State, step s = .next t → t.params = s.params

/-! ## RDREG and the register space -/

/-- R124, R46: RDREG in `UNINIT` and in `READY` answers the one word that the map gives and changes nothing else, so
that every address reads as before; an unmapped address raises ADDR and answers nothing. -/
def Obligations.RdregAnswersTheMap : Prop :=
  ∀ (s : State) (a : Nat), s.mode ≠ .fault →
    (∀ w, memRead s a = some w →
        exec (.rdreg a) s = .next { s with output := s.output ++ [w] }
        ∧ ∀ b, memRead { s with output := s.output ++ [w] } b = memRead s b)
    ∧ (memRead s a = none → exec (.rdreg a) s = .next { s with mode := .fault, err := .addr })

/-- R47: the STATUS word: the mode in bits 1 to 0, the phase in bits 3 to 2, zero above. -/
def Obligations.StatusWordLayout : Prop :=
  ∀ s : State, ∃ w, memRead s 0 = some w ∧ w.toNat < 16
    ∧ w.toNat % 4 = (match s.mode with | .uninit => 0 | .ready => 1 | .fault => 2)
    ∧ w.toNat / 4 = (if s.silCnt < s.fadeStart then 0 else if s.silCnt < s.fadeEnd then 1 else 2)

/-- R48 to R51: what every mapped address but STATUS (StatusWordLayout) reads; R50's channels that the session does not
use read +0.0 in every sound state; R51's offsets 5 to 7 are unmapped. -/
def Obligations.RegisterMapValues : Prop :=
  ∀ s : State, s.params.maxch ≤ 1024 →
    memRead s 0x1 = some s.nch ∧ memRead s 0x2 = some s.fs ∧ memRead s 0x3 = some s.fadeStart
    ∧ memRead s 0x4 = some s.fadeEnd ∧ memRead s 0x5 = some s.fadeLen ∧ memRead s 0x6 = some s.silCnt
    ∧ (∀ p : SmIdx,
        memRead s (0x10 + 8 * smIdxBit p) = some (s.smoother p).cur
        ∧ memRead s (0x10 + 8 * smIdxBit p + 1) = some (s.smoother p).tgt
        ∧ memRead s (0x10 + 8 * smIdxBit p + 2) = some (s.smoother p).rem
        ∧ memRead s (0x10 + 8 * smIdxBit p + 3) = some (s.smoother p).step
        ∧ memRead s (0x10 + 8 * smIdxBit p + 4) = some (BitVec.ofNat 32 (lawBit (s.smoother p).law)))
    ∧ (∀ c st, c < s.params.maxch → st < 4 →
        memRead s (0x1000 + 8 * c + 2 * st) = some (bankStage (s.bank c) st).s1
        ∧ memRead s (0x1000 + 8 * c + 2 * st + 1) = some (bankStage (s.bank c) st).s2
        ∧ (s.sound → s.nch.toNat ≤ c →
            memRead s (0x1000 + 8 * c + 2 * st) = some 0#32 ∧ memRead s (0x1000 + 8 * c + 2 * st + 1) = some 0#32)
        ∧ memRead s (0x8000 + 32 * c + 8 * st) = some (bankStageCoef (s.bankCoef c) st).b0
        ∧ memRead s (0x8000 + 32 * c + 8 * st + 1) = some (bankStageCoef (s.bankCoef c) st).b1
        ∧ memRead s (0x8000 + 32 * c + 8 * st + 2) = some (bankStageCoef (s.bankCoef c) st).b2
        ∧ memRead s (0x8000 + 32 * c + 8 * st + 3) = some (bankStageCoef (s.bankCoef c) st).a1
        ∧ memRead s (0x8000 + 32 * c + 8 * st + 4) = some (bankStageCoef (s.bankCoef c) st).a2
        ∧ ∀ j, 5 ≤ j → j < 8 → memRead s (0x8000 + 32 * c + 8 * st + j) = none)

/-- R52: a 16-bit address is unmapped exactly where R52 says, and RDREG of such an address raises ADDR and answers
nothing. -/
def Obligations.UnmappedAddressesExactly : Prop :=
  ∀ (s : State) (a : Nat), s.params.maxch ≤ 1024 → a ≤ 0xFFFF →
    (memRead s a = none ↔ unmappedAddr s.params.maxch a)
    ∧ (unmappedAddr s.params.maxch a → s.mode ≠ .fault →
        exec (.rdreg a) s = .next { s with mode := .fault, err := .addr })

/-- R50: the channels that the session does not use read +0.0, in every sound state. -/
def Obligations.UnusedChannelsReadZero : Prop :=
  ∀ (s : State) (c r : Nat), s.sound → s.nch.toNat ≤ c → c < s.params.maxch → r < 8 →
    memRead s (0x1000 + 8 * c + r) = some 0#32

/-! ## CFG and the smoothers -/

/-- R74, R75, R76: CFG in `READY`: target, law, step count and step of the one smoother, its current value and the
other smoother as before, and nothing else changed. -/
def Obligations.CfgStartsRamp : Prop :=
  ∀ (s : State) (p : SmIdx) (law : Law) (target ramp : Word), s.mode = .ready →
    ∃ t, exec (.cfg p law target ramp) s = .next t
      ∧ t = { s with gain := t.gain, dist := t.dist }
      ∧ (t.smoother p).cur = (s.smoother p).cur
      ∧ (t.smoother p).tgt = target
      ∧ (t.smoother p).law = law
      ∧ (t.smoother p).rem = ms2n ramp s.fs
      ∧ (ms2n ramp s.fs = 0#32 → (t.smoother p).step = 0#32)
      ∧ (ms2n ramp s.fs ≠ 0#32 → law = .lin →
          (t.smoother p).step = fdiv (fsub target (s.smoother p).cur) (u2f (ms2n ramp s.fs)))
      ∧ (ms2n ramp s.fs ≠ 0#32 → law = .log →
          (t.smoother p).step
            = Config.powf (fdiv target (s.smoother p).cur) (fdiv 0x3F800000#32 (u2f (ms2n ramp s.fs))))
      ∧ (p = .gain → t.dist = s.dist) ∧ (p = .dist → t.gain = s.gain)

/-- R33, R73, R77, R79: while a ramp of `SM_REM` steps runs each advance uses up one step; from its last step on, or
at once where there is none, every advance gives the target itself, and the target never moves. -/
def Obligations.RampLandsOnTarget : Prop :=
  ∀ (sm : Smoother) (n : Nat),
    (smNext^[n] sm).tgt = sm.tgt
    ∧ (smNext^[n] sm).rem.toNat = sm.rem.toNat - n
    ∧ (1 ≤ n → sm.rem.toNat ≤ n → (smNext^[n] sm).cur = sm.tgt)

/-- R77: the three cases of one advance. -/
def Obligations.AdvanceTakesOneStep : Prop :=
  ∀ sm : Smoother,
    (sm.rem.toNat ≤ 1 → smNext sm = { sm with cur := sm.tgt, rem := 0#32 })
    ∧ (2 ≤ sm.rem.toNat → sm.law = .lin → smNext sm = { sm with cur := fadd sm.cur sm.step, rem := sm.rem - 1#32 })
    ∧ (2 ≤ sm.rem.toNat → sm.law = .log → smNext sm = { sm with cur := fmul sm.cur sm.step, rem := sm.rem - 1#32 })

/-- R81, R20, R21: a ramp time that is NaN or below zero counts no step; an infinite one, and one of any value whose
product with the sample rate overflows or reaches 2^32 = 4294967296.0, counts 4294967295, and no other does; at
every sample rate that INIT accepts. -/
def Obligations.BadRampTimesCount : Prop :=
  ∀ ramp fs : Word, fgt fs posZero = true → fs ≠ posInf →
    (isNaN ramp = true → ms2n ramp fs = 0#32)
    ∧ (fgt posZero ramp = true → ms2n ramp fs = 0#32)
    ∧ (ramp = posInf → ms2n ramp fs = 0xFFFFFFFF#32)
    ∧ (fge (fmul (fdiv ramp 0x447A0000#32) fs) 0x4F800000#32 = true → ms2n ramp fs = 0xFFFFFFFF#32)
    ∧ (fge (fmul (fdiv ramp 0x447A0000#32) fs) 0x4F800000#32 = false → (ms2n ramp fs).toNat < 4294967295)

/-! ## The filter bank -/

/-- R117, R92, R109: a frame that finds the distortion value not above zero is answered alike whatever the cascades
hold, and no cascade moves; while the smoother rests at such a value the same holds of a block of any frames. R117's
own words are of a value of exactly 0.0. Where the gain is a NaN the equality of the outputs rests on log entry 3. -/
def Obligations.BypassedBlockIgnoresFilter : Prop :=
  ∀ (s : State) (bs : List Bank), engaged s.dist.cur = false →
    (∀ xs, frameOut { s with banks := bs } xs = frameOut s xs ∧ (frameNext s xs).banks = s.banks)
    ∧ (s.dist.rem = 0#32 → engaged s.dist.tgt = false → ∀ frames : List (List Word),
        framesOut { s with banks := bs } frames = framesOut s frames
        ∧ (framesAfter s frames).banks = s.banks)

/-- R88: a NaN sample, or a NaN in the first register of the first stage, makes the filtered sample and all eight
registers of the cascade NaN, whatever the coefficients; the shaper then gives the gain times -1.0 (R96). -/
def Obligations.NaNPoisonsCascade : Prop :=
  ∀ (k : BankCoef) (b : Bank) (x g : Word), (isNaN x = true ∨ isNaN b.st0.s1 = true) →
    isNaN (fbOut k b x) = true ∧ bankPoisoned (fbNext k b x) = true
      ∧ wsShape g (fbOut k b x) = fmul 0xBF800000#32 g

/-- R87, R91, R150: a cascade of a channel in use that holds NaNs is back at +0.0 after RESET, and not before: every
engaged frame leaves it poisoned. -/
def Obligations.PoisonLastsUntilReset : Prop :=
  ∀ (s : State) (c : Nat) (b : Bank), s.banks[c]? = some b → bankPoisoned b = true →
    (∀ xs, ∃ b', (frameNext s xs).banks[c]? = some b' ∧ bankPoisoned b' = true)
    ∧ (s.mode = .ready → c < s.nch.toNat →
        ∃ t, exec .reset s = .next t ∧ t.banks[c]? = some Bank.zero)

/-- R111: the output and the cascade of a channel depend on its own sample, its own cascade and coefficients and
what the channels share, not on another channel. Where a NaN is computed the equality rests on log entry 3. -/
def Obligations.ChannelsAreIndependent : Prop :=
  ∀ (s s' : State) (xs xs' : List Word) (c : Nat),
    s'.gain = s.gain → s'.dist = s.dist → s'.silCnt = s.silCnt → s'.fadeStart = s.fadeStart →
    s'.fadeEnd = s.fadeEnd → s'.fadeLen = s.fadeLen → s'.bankCoef c = s.bankCoef c →
    s'.banks[c]? = s.banks[c]? → xs'[c]? = xs[c]? →
      (frameOut s' xs')[c]? = (frameOut s xs)[c]?
      ∧ (frameNext s' xs').banks[c]? = (frameNext s xs).banks[c]?

/-! ## The waveshaper and the fade -/

/-- R94, R95, R96: the shaper is the product of +1.0 or -1.0 with the gain, exactly the gain or the gain with its sign
inverted where the gain is no NaN, and some NaN where it is. -/
def Obligations.HardClipIsExact : Prop :=
  ∀ v g : Word,
    wsShape g v = fmul (if fge v 0x00000000#32 = true then 0x3F800000#32 else 0xBF800000#32) g
    ∧ (isNaN g = false → wsShape g v = if fge v 0x00000000#32 = true then g else g ^^^ 0x80000000#32)
    ∧ (isNaN g = true → isNaN (wsShape g v) = true)

/-- R118: in the Active phase every output sample is the gain of the frame or its negation, and in the Muted phase it
is +0.0, whatever the input and the filter. -/
def Obligations.OutputIsSignQuantised : Prop :=
  ∀ (s : State) (xs : List Word) (y : Word), y ∈ frameOut s xs →
    (s.phase = .active → isNaN (frameGain s) = false → y = frameGain s ∨ y = frameGain s ^^^ 0x80000000#32)
    ∧ (s.phase = .muted → y = 0#32)

/-- R98: the step count grows with the milliseconds, at every sample rate that INIT accepts. -/
def Obligations.SampleCountIsMonotone : Prop :=
  ∀ ms ms' fs : Word, fge ms posZero = true → fge ms' ms = true → isFinite ms' = true →
    fgt fs posZero = true → fs ≠ posInf → (ms2n ms fs).toNat ≤ (ms2n ms' fs).toNat

/-- R18, R20: the conversions between counts and binary32 are exact below 2^24. -/
def Obligations.SmallCountsConvertExactly : Prop :=
  ∀ n : Word, n.toNat < 2 ^ 24 → f2uSat (u2f n) = n ∧ fround (u2f n) = u2f n

/-- R101, R102 (a), R106: from `SIL_CNT = 0` a run of silent frames: frame `k` finds the counter at the lesser of `k` and
`FADE_END`; before `FADE_START` the shaped samples pass, from there they are multiplied by
`1 - (k - FADE_START)/FADE_LEN`, and from `FADE_END` on every sample is +0.0. -/
def Obligations.SilenceFadesToZero : Prop :=
  ∀ (s : State) (frames : List (List Word)),
    s.silCnt = 0#32 → s.thresholdsOrdered → (∀ xs ∈ frames, frameSilent xs = true) →
      ∀ k xs, frames[k]? = some xs →
        (framesAfter s (frames.take k)).silCnt.toNat = min k s.fadeEnd.toNat
        ∧ (k < s.fadeStart.toNat →
            frameOut (framesAfter s (frames.take k)) xs
              = (frameFiltered (framesAfter s (frames.take k)) xs).map
                  (wsShape (frameGain (framesAfter s (frames.take k)))))
        ∧ (s.fadeStart.toNat ≤ k → k < s.fadeEnd.toNat →
            frameOut (framesAfter s (frames.take k)) xs
              = (frameFiltered (framesAfter s (frames.take k)) xs).map fun v =>
                  fmul (wsShape (frameGain (framesAfter s (frames.take k))) v)
                    (fsub 0x3F800000#32
                      (fdiv (u2f (BitVec.ofNat 32 (k - s.fadeStart.toNat))) (u2f s.fadeLen))))
        ∧ (s.fadeEnd.toNat ≤ k →
            frameOut (framesAfter s (frames.take k)) xs = List.replicate xs.length 0#32)

/-- R102 (b) and (c), R103: one sample that is not a zero of either sign clears the counter, and the very next frame
passes at once, where there is an Active phase at all. -/
def Obligations.AttackIsInstantaneous : Prop :=
  ∀ (s : State) (xs ys : List Word) (x : Word), x ∈ xs → x ≠ 0x00000000#32 → x ≠ 0x80000000#32 →
    (frameNext s xs).silCnt = 0#32
    ∧ (0 < s.fadeStart.toNat →
        frameOut (frameNext s xs) ys
          = (frameFiltered (frameNext s xs) ys).map (wsShape (frameGain (frameNext s xs))))

/-- R104, R142: after RESET the first frame is answered with +0.0 throughout, and so is every frame of a silent run. -/
def Obligations.ResetStaysMutedOnSilence : Prop :=
  ∀ (s t : State), s.mode = .ready → s.thresholdsOrdered → exec .reset s = .next t →
    (∀ xs, frameOut t xs = List.replicate xs.length 0#32)
    ∧ ∀ frames : List (List Word), (∀ xs ∈ frames, frameSilent xs = true) →
        framesOut t frames = List.replicate frames.flatten.length 0#32

/-- R100: the fade starts from a multiplier of exactly 1.0. -/
def Obligations.FadeStartsAtUnity : Prop :=
  ∀ s : State, s.silCnt = s.fadeStart → s.fadeLen ≠ 0#32 → fadeMultiplier s = 0x3F800000#32

/-- R100: within the Fading phase the multiplier is above zero and at most 1.0, for a fade of at most 2^24 frames. -/
def Obligations.ShortFadeStaysAboveZero : Prop :=
  ∀ s : State, s.phase = .fading → s.thresholdsOrdered → s.fadeLen = s.fadeEnd - s.fadeStart →
    s.fadeLen.toNat ≤ 2 ^ 24 →
      fgt (fadeMultiplier s) posZero = true ∧ fge 0x3F800000#32 (fadeMultiplier s) = true

/-- R100 says of the multiplier in the Fading phase that it is never 0.0. With a fade of more than 2^24 frames the
rounding of its own formula makes it +0.0 at the end, so this is expected to FAIL (log entry 11). -/
def Obligations.FadeMultiplierNeverZero : Prop :=
  ∀ s : State, s.sound → s.thresholdsOrdered → s.phase = .fading → feq (fadeMultiplier s) posZero = false

/-! ## The pipeline and PROC -/

/-- R112, R65, R68: PROC in `READY` with its samples at the front of the stream takes them frame by frame and answers
each frame in order; after the last the state is that after the frames, and the words that follow are
untouched. -/
def Obligations.ProcRunsItsFrames : Prop :=
  ∀ (s : State) (frames : List (List Word)) (rest : List Word),
    s.mode = .ready → s.betweenCommands → framesFit s.nch.toNat frames → s.input = frames.flatten ++ rest →
      exec (.proc frames.length) s
        = .next { framesAfter s frames with
            cursor := s.cursor + frames.length * s.nch.toNat
            input := rest
            output := s.output ++ framesOut s frames }
      ∧ (framesOut s frames).length = frames.length * s.nch.toNat

/-- R108, R110, R92, R101: what one frame does to the state: both smoothers advanced once, the cascades advanced where
the peeked distortion is above zero and else as they were, the silence counter; nothing else. That a channel
without a sample, in a frame shorter than the channels, keeps its cascade is the model's reading (log entry 18). -/
def Obligations.FrameWritesItsRegisters : Prop :=
  ∀ (s : State) (xs : List Word),
    frameNext s xs
      = { s with
          gain := smNext s.gain
          dist := smNext s.dist
          silCnt := (frameNext s xs).silCnt
          banks := (frameNext s xs).banks }
    ∧ (frameNext s xs).banks.length = s.banks.length
    ∧ (∀ c b, s.banks[c]? = some b →
        (frameNext s xs).banks[c]?
          = some (match xs[c]? with
              | some x => if fgt s.dist.cur 0#32 then fbNext (s.bankCoef c) b x else b
              | none => b))
    ∧ (frameSilent xs = true →
        (frameNext s xs).silCnt.toNat = min (s.silCnt.toNat + 1) s.fadeEnd.toNat)
    ∧ (frameSilent xs = false → (frameNext s xs).silCnt = 0#32)

/-- R108, R100, R102, R109: the output of each channel of a frame: the sample, through the cascade where the peeked
distortion is above zero, shaped with the advanced gain, then treated as the phase before the frame says. -/
def Obligations.FrameAnswersEachChannel : Prop :=
  ∀ (s : State) (xs : List Word),
    (frameOut s xs).length = xs.length
    ∧ ∀ c x, xs[c]? = some x →
        ∃ v y, v = (if fgt s.dist.cur 0#32 then fbOut (s.bankCoef c) (s.bank c) x else x)
          ∧ y = fmul (if fge v 0#32 then 0x3F800000#32 else 0xBF800000#32) (smNext s.gain).cur
          ∧ (s.silCnt < s.fadeStart → (frameOut s xs)[c]? = some y)
          ∧ (s.fadeStart ≤ s.silCnt → s.silCnt < s.fadeEnd →
              (frameOut s xs)[c]?
                = some (fmul y (fsub 0x3F800000#32 (fdiv (u2f (s.silCnt - s.fadeStart)) (u2f s.fadeLen)))))
          ∧ (s.fadeStart ≤ s.silCnt → s.fadeEnd ≤ s.silCnt → (frameOut s xs)[c]? = some 0#32)

/-- R113: a block of no frames takes its header word and does nothing else. -/
def Obligations.EmptyBlockDoesNothing : Prop :=
  ∀ (s : State) (rest : List Word), s.mode = .ready → s.betweenCommands → s.por = none →
    s.input = 0x04000000#32 :: rest →
      step s = .next { s with cursor := s.cursor + 1, input := rest }

/-- R114: a block in one PROC or split over two gives the same responses and the same state, but for the one header
word more that the cursor counts (R68, T-PL-4), which R114's words do not except. On runs with NaNs the equality
rests on log entry 3. -/
def Obligations.BlockSplitIsInvisible : Prop :=
  ∀ (s : State) (first second : List (List Word)),
    s.mode = .ready → s.betweenCommands → s.por = none →
    framesFit s.nch.toNat first → framesFit s.nch.toNat second → (first ++ second).length < 2 ^ 16 →
      ∃ t : State,
        Sys2Proof.core.run 1 ({ s with input := encodeBlock (first ++ second) } : State) = .next t
        ∧ Sys2Proof.core.run 2 ({ s with input := encodeBlock first ++ encodeBlock second } : State)
            = .next ({ t with cursor := t.cursor + 1 } : State)

/-- R109, R110, R145, R146: after a CFG with no ramp steps the gain smoother's new target is in the very next frame,
while the engage decision of the next frame is still the old one and that of the frame after follows the
new target. -/
def Obligations.EngageLagsOneFrame : Prop :=
  ∀ (s t : State) (p : SmIdx) (law : Law) (target ramp : Word) (xs : List Word),
    s.mode = .ready → ms2n ramp s.fs = 0#32 → exec (.cfg p law target ramp) s = .next t →
      (p = .gain → frameGain t = target)
      ∧ (p = .dist → frameEngaged t = fgt s.dist.cur 0#32 ∧ frameEngaged (frameNext t xs) = fgt target 0#32)

/-- R130, R126: from `READY`, RESET, CFG and PROC cannot fault: no sample, target or ramp time is an error. -/
def Obligations.DataNeverFaults : Prop :=
  ∀ s : State, s.mode = .ready →
    (∃ t, exec .reset s = .next t ∧ t.mode = .ready ∧ t.err = s.err)
    ∧ (∀ p law target ramp, ∃ t, exec (.cfg p law target ramp) s = .next t ∧ t.mode = .ready ∧ t.err = s.err)
    ∧ ∀ n, ∃ t, exec (.proc n) s = .next t ∧ t.mode = .ready ∧ t.err = s.err

/-- R42, R23, R24: the sideband shows the mode and the fault code in every state. -/
def Obligations.SidebandShowsModeAndErr : Prop :=
  ∀ s : State,
    s.sideband.1.toNat = (match s.mode with | .uninit => 0 | .ready => 1 | .fault => 2)
    ∧ s.sideband.2.toNat
        = (match s.err with | .none => 0 | .config => 1 | .illegal => 2 | .state => 3 | .addr => 4)

/-- R17: a comparison with a NaN is false; the two zeros are equal, each at least the other, neither greater. -/
def Obligations.ComparisonsWithNaNAreFalse : Prop :=
  (∀ a b : Word, (isNaN a = true ∨ isNaN b = true) → feq a b = false ∧ fge a b = false ∧ fgt a b = false)
  ∧ feq 0x80000000#32 0x00000000#32 = true ∧ fge 0x80000000#32 0x00000000#32 = true
  ∧ fgt 0x80000000#32 0x00000000#32 = false

/-- R15, R16: an operation with a NaN operand yields some NaN, whichever. -/
def Obligations.NaNOperandsYieldNaN : Prop :=
  ∀ a b : Word, (isNaN a = true ∨ isNaN b = true) →
    isNaN (fadd a b) = true ∧ isNaN (fsub a b) = true ∧ isNaN (fmul a b) = true ∧ isNaN (fdiv a b) = true
end

