-- ==== Sys2Proof/Laws/Float.lean ====
section
/-! SUPPORT. The small lemmas of the floating-point primitives: fields of a packed word, what rounding to nearest
even does, which results are NaN. Later proofs cite these and do not unfold the arithmetic. -/

namespace Sys2Proof.Machine

/-! ### Words and their fields -/

theorem fMag_lt (w : Word) : fMag w < 2 ^ 31 := Nat.mod_lt _ (by decide)

theorem fSign_eq (w : Word) : fSign w = decide (2 ^ 31 ≤ w.toNat) := by
  simp [fSign, BitVec.msb_eq_decide]

theorem toNat_packFloat (b : Bool) (m : Nat) (h : m < 2 ^ 31) :
    (packFloat b m).toNat = (if b then 2 ^ 31 else 0) + m := by
  unfold packFloat
  rw [BitVec.toNat_ofNat]
  cases b
  · simp; omega
  · simp; omega

theorem fMag_packFloat (b : Bool) (m : Nat) (h : m < 2 ^ 31) : fMag (packFloat b m) = m := by
  unfold fMag
  rw [toNat_packFloat b m h]
  cases b
  · simp; omega
  · simp; omega

theorem fSign_packFloat (b : Bool) (m : Nat) (h : m < 2 ^ 31) : fSign (packFloat b m) = b := by
  rw [fSign_eq, toNat_packFloat b m h]
  cases b
  · simp; omega
  · simp

/-- A word is its sign and its magnitude. -/
theorem packFloat_fields (w : Word) : packFloat (fSign w) (fMag w) = w := by
  apply BitVec.eq_of_toNat_eq
  rw [toNat_packFloat _ _ (fMag_lt w), fSign_eq]
  have := w.isLt
  unfold fMag
  by_cases h : 2 ^ 31 ≤ w.toNat
  · rw [decide_eq_true h, if_pos rfl]; omega
  · rw [decide_eq_false h, if_neg Bool.false_ne_true]; omega

theorem infMag_lt : infMag < 2 ^ 31 := by decide

theorem fMag_fneg (w : Word) : fMag (fneg w) = fMag w := by
  unfold fMag fneg
  rw [BitVec.toNat_xor, Nat.xor_mod_two_pow]
  exact Nat.xor_zero _

theorem fSign_fneg (w : Word) : fSign (fneg w) = !fSign w := by
  unfold fSign fneg
  rw [BitVec.msb_xor, show (negZero).msb = true from rfl, Bool.xor_true]

/-- Inverting the sign bit leaves the magnitude. -/
theorem fneg_eq_packFloat (w : Word) : fneg w = packFloat (!fSign w) (fMag w) := by
  rw [← packFloat_fields (fneg w), fMag_fneg, fSign_fneg]

/-! ### NaN -/

theorem isNaN_iff (w : Word) : isNaN w = true ↔ infMag < fMag w := by simp [isNaN]

theorem isNaN_false_iff (w : Word) : isNaN w = false ↔ fMag w ≤ infMag := by simp [isNaN]

theorem isNaN_asNaN (x : Word) : isNaN (asNaN x) = true := by
  rw [isNaN_iff, asNaN, fMag_packFloat] <;> unfold infMag <;> split <;> omega

/-- Whatever the open choice of sign and payload, the free value is a NaN (R16). -/
@[simp] theorem isNaN_freeNaN (op : FOp) (a b : Word) : isNaN (freeNaN op a b) = true := isNaN_asNaN _

theorem isNaN_packFloat (b : Bool) (m : Nat) (h : m ≤ infMag) : isNaN (packFloat b m) = false := by
  rw [isNaN_false_iff, fMag_packFloat]
  · exact h
  · exact Nat.lt_of_le_of_lt h infMag_lt

theorem isNaN_fadd (a b : Word) (h : isNaN a = true ∨ isNaN b = true) : isNaN (fadd a b) = true := by
  unfold fadd; rcases h with h | h <;> simp [h]

theorem isNaN_fsub (a b : Word) (h : isNaN a = true ∨ isNaN b = true) : isNaN (fsub a b) = true := by
  unfold fsub; rcases h with h | h <;> simp [h]

theorem isNaN_fmul (a b : Word) (h : isNaN a = true ∨ isNaN b = true) : isNaN (fmul a b) = true := by
  unfold fmul; rcases h with h | h <;> simp [h]

theorem isNaN_fdiv (a b : Word) (h : isNaN a = true ∨ isNaN b = true) : isNaN (fdiv a b) = true := by
  unfold fdiv; rcases h with h | h <;> simp [h]

/-! ### Comparison with zero -/

/-- Greater than zero: no NaN, no sign, a magnitude that is not zero (R17). -/
theorem fgt_zero_iff (w : Word) :
    fgt w posZero = true ↔ fMag w ≤ infMag ∧ fSign w = false ∧ 0 < fMag w := by
  have h0 : isNaN posZero = false := by decide
  have hk : orderKey posZero = 0 := by decide
  unfold fgt
  rw [hk, h0]
  by_cases hn : isNaN w = true
  · have := (isNaN_iff w).1 hn
    simp [hn]; omega
  · have hn' : isNaN w = false := by simpa using hn
    have := (isNaN_false_iff w).1 hn'
    unfold orderKey
    cases hs : fSign w <;> simp [hn', this]

/-! ### Rounding -/

/-- What rounding to nearest even gives: within half of the quotient, and even at a tie. -/
theorem roundHalfEven_spec (n d : Nat) (hd : 0 < d) :
    2 * n ≤ (2 * roundHalfEven n d + 1) * d ∧ 2 * roundHalfEven n d * d ≤ 2 * n + d
      ∧ (2 * n = (2 * roundHalfEven n d + 1) * d → roundHalfEven n d % 2 = 0)
      ∧ (2 * roundHalfEven n d * d = 2 * n + d → roundHalfEven n d % 2 = 0) := by
  have hdiv := Nat.div_add_mod n d
  have hlt := Nat.mod_lt n hd
  generalize hq : n / d = q at *
  generalize hr : n % d = r at *
  have hn : n = d * q + r := hdiv.symm
  unfold roundHalfEven
  rw [hq, hr]
  have hc : d * q = q * d := Nat.mul_comm _ _
  split
  · have e1 : (2 * q + 1) * d = 2 * (q * d) + d := by ring
    have e2 : 2 * q * d = 2 * (q * d) := by ring
    rw [e1, e2]; omega
  · split
    · have e1 : (2 * (q + 1) + 1) * d = 2 * (q * d) + 3 * d := by ring
      have e2 : 2 * (q + 1) * d = 2 * (q * d) + 2 * d := by ring
      rw [e1, e2]; omega
    · rcases Nat.mod_two_eq_zero_or_one q with h | h
      · rw [h]
        have e1 : (2 * q + 1) * d = 2 * (q * d) + d := by ring
        have e2 : 2 * q * d = 2 * (q * d) := by ring
        simp only [Nat.add_zero, e1, e2]; omega
      · rw [h]
        have e1 : (2 * (q + 1) + 1) * d = 2 * (q * d) + 3 * d := by ring
        have e2 : 2 * (q + 1) * d = 2 * (q * d) + 2 * d := by ring
        rw [e1, e2]; omega

/-- Rounding to nearest even is monotone in the quotient. -/
theorem roundHalfEven_mono (n d n' d' : Nat) (hd : 0 < d) (hd' : 0 < d') (h : n * d' ≤ n' * d) :
    roundHalfEven n d ≤ roundHalfEven n' d' := by
  obtain ⟨-, h1, -, h2⟩ := roundHalfEven_spec n d hd
  obtain ⟨h3, -, h4, -⟩ := roundHalfEven_spec n' d' hd'
  generalize roundHalfEven n d = r at *
  generalize roundHalfEven n' d' = r' at *
  by_contra hlt
  have hle : r' + 1 ≤ r := by omega
  have hp : 0 < d * d' := Nat.mul_pos hd hd'
  have a1 : 2 * r * d * d' ≤ (2 * n + d) * d' := Nat.mul_le_mul_right _ h1
  have a2 : 2 * n' * d ≤ (2 * r' + 1) * d' * d := Nat.mul_le_mul_right _ h3
  have a3 : (2 * r' + 2) * (d * d') ≤ 2 * r * (d * d') := Nat.mul_le_mul_right _ (by omega)
  have b1 : (2 * n + d) * d' = 2 * (n * d') + d * d' := by ring
  have b2 : (2 * r' + 1) * d' * d = (2 * r' + 1) * (d * d') := by ring
  have b3 : 2 * r * d * d' = 2 * r * (d * d') := by ring
  have b4 : 2 * n' * d = 2 * (n' * d) := by ring
  have b5 : (2 * r' + 2) * (d * d') = (2 * r' + 1) * (d * d') + d * d' := by ring
  rw [b1, b3] at a1
  rw [b2, b4] at a2
  rw [b5] at a3
  have c1 : 2 * r * (d * d') = (2 * r' + 1) * (d * d') + d * d' := by omega
  have c2 : 2 * (n' * d) = (2 * r' + 1) * (d * d') := by omega
  have c3 : 2 * (n * d') + d * d' = 2 * r * (d * d') := by omega
  have e1 : r = r' + 1 := by
    have : 2 * r * (d * d') = (2 * r' + 2) * (d * d') := by rw [b5]; exact c1
    have := Nat.eq_of_mul_eq_mul_right hp this
    omega
  have e2 : 2 * n' = (2 * r' + 1) * d' := by
    apply Nat.eq_of_mul_eq_mul_right hd
    rw [b4, b2]; exact c2
  have e3 : 2 * r * d = 2 * n + d := by
    apply Nat.eq_of_mul_eq_mul_right hd'
    rw [b3, b1]; omega
  have := h4 e2
  have := h2 e3
  omega

theorem roundHalfEven_exact (m d : Nat) (hd : 0 < d) : roundHalfEven (m * d) d = m := by
  unfold roundHalfEven
  simp [Nat.mul_div_cancel _ hd, hd]

theorem roundHalfEven_le (n d m : Nat) (hd : 0 < d) (h : n ≤ m * d) : roundHalfEven n d ≤ m := by
  have := roundHalfEven_mono n d (m * d) d hd hd (Nat.mul_le_mul_right _ h)
  rwa [roundHalfEven_exact _ _ hd] at this

theorem le_roundHalfEven (n d m : Nat) (hd : 0 < d) (h : m * d ≤ n) : m ≤ roundHalfEven n d := by
  have := roundHalfEven_mono (m * d) d n d hd hd (Nat.mul_le_mul_right _ h)
  rwa [roundHalfEven_exact _ _ hd] at this

/-- How far the last place of the result stands above the least subnormal. -/
def placeShift (n d : Nat) : Nat := (n / d).log2 - 23

theorem roundMag_eq (n d : Nat) :
    roundMag n d = min (placeShift n d * 2 ^ 23 + roundHalfEven n (d * 2 ^ placeShift n d)) infMag := rfl

theorem roundMag_le (n d : Nat) : roundMag n d ≤ infMag := Nat.min_le_right _ _

theorem lt_of_placeShift (n d : Nat) (hd : 0 < d) : n < 2 ^ 24 * (d * 2 ^ placeShift n d) := by
  have h1 : n / d < 2 ^ ((n / d).log2 + 1) := Nat.lt_log2_self
  have h2 : (n / d).log2 + 1 ≤ placeShift n d + 24 := by unfold placeShift; omega
  have h3 : n / d < 2 ^ (placeShift n d + 24) := lt_of_lt_of_le h1 (Nat.pow_le_pow_right (by decide) h2)
  have h4 := (Nat.div_lt_iff_lt_mul hd).1 h3
  calc n < 2 ^ (placeShift n d + 24) * d := h4
    _ = 2 ^ 24 * (d * 2 ^ placeShift n d) := by rw [pow_add]; ring

theorem le_of_placeShift (n d : Nat) (hd : 0 < d) (h : 0 < placeShift n d) :
    2 ^ 23 * (d * 2 ^ placeShift n d) ≤ n := by
  have hq : n / d ≠ 0 := by
    intro h0
    simp [placeShift, h0] at h
  have h1 : 2 ^ (n / d).log2 ≤ n / d := Nat.log2_self_le hq
  have h2 : placeShift n d + 23 = (n / d).log2 := by unfold placeShift at *; omega
  rw [← h2] at h1
  have h4 := (Nat.le_div_iff_mul_le hd).1 h1
  calc 2 ^ 23 * (d * 2 ^ placeShift n d) = 2 ^ (placeShift n d + 23) * d := by rw [pow_add]; ring
    _ ≤ n := h4

theorem placeShift_mono (n d n' d' : Nat) (hd : 0 < d) (hd' : 0 < d') (h : n * d' ≤ n' * d) :
    placeShift n d ≤ placeShift n' d' := by
  have hq : n / d ≤ n' / d' := by
    rw [Nat.le_div_iff_mul_le hd']
    have h1 : n / d * d ≤ n := Nat.div_mul_le_self n d
    have h2 : n / d * d' * d ≤ n' * d := by
      calc n / d * d' * d = n / d * d * d' := by ring
        _ ≤ n * d' := Nat.mul_le_mul_right _ h1
        _ ≤ n' * d := h
    exact Nat.le_of_mul_le_mul_right h2 hd
  unfold placeShift
  have : (n / d).log2 ≤ (n' / d').log2 := by
    rw [Nat.log2_eq_log_two, Nat.log2_eq_log_two]
    exact Nat.log_mono_right hq
  omega

/-- The nearest binary32 is monotone in the exact value. -/
theorem roundMag_mono (n d n' d' : Nat) (hd : 0 < d) (hd' : 0 < d') (h : n * d' ≤ n' * d) :
    roundMag n d ≤ roundMag n' d' := by
  rw [roundMag_eq, roundMag_eq]
  refine min_le_min_right _ ?_
  have hs := placeShift_mono n d n' d' hd hd' h
  have hp : ∀ k, 0 < 2 ^ k := fun k => Nat.pow_pos (by decide)
  rcases Nat.lt_or_eq_of_le hs with hlt | heq
  · have h1 : roundHalfEven n (d * 2 ^ placeShift n d) ≤ 2 ^ 24 :=
      roundHalfEven_le _ _ _ (Nat.mul_pos hd (hp _)) (Nat.le_of_lt (lt_of_placeShift n d hd))
    have h2 : 2 ^ 23 ≤ roundHalfEven n' (d' * 2 ^ placeShift n' d') :=
      le_roundHalfEven _ _ _ (Nat.mul_pos hd' (hp _)) (le_of_placeShift n' d' hd' (by omega))
    have h3 : (placeShift n d + 1) * 2 ^ 23 ≤ placeShift n' d' * 2 ^ 23 := Nat.mul_le_mul_right _ hlt
    omega
  · rw [heq]
    refine Nat.add_le_add_left (roundHalfEven_mono _ _ _ _ (Nat.mul_pos hd (hp _)) (Nat.mul_pos hd' (hp _)) ?_) _
    calc n * (d' * 2 ^ placeShift n' d') = n * d' * 2 ^ placeShift n' d' := by ring
      _ ≤ n' * d * 2 ^ placeShift n' d' := Nat.mul_le_mul_right _ h
      _ = n' * (d * 2 ^ placeShift n' d') := by ring

/-- A finite binary32 is the nearest one to its own value. -/
theorem roundMag_magUnits (m d : Nat) (hm : m < infMag) (hd : 0 < d) : roundMag (magUnits m * d) d = m := by
  have hq : magUnits m * d / d = magUnits m := Nat.mul_div_cancel _ hd
  have hdm := Nat.div_add_mod m (2 ^ 23)
  have hlt := Nat.mod_lt m (show 0 < 2 ^ 23 by decide)
  rw [roundMag_eq]
  unfold placeShift
  rw [hq]
  unfold magUnits
  generalize m / 2 ^ 23 = e at *
  generalize m % 2 ^ 23 = f at *
  split
  · next h0 =>
    subst h0
    have hl : f.log2 - 23 = 0 := by
      have : f.log2 < 23 ∨ f = 0 := by
        by_cases h : f = 0
        · exact Or.inr h
        · exact Or.inl ((Nat.log2_lt h).2 hlt)
      rcases this with h | h
      · omega
      · subst h; rfl
    rw [hl, Nat.pow_zero, Nat.mul_one, roundHalfEven_exact _ _ hd]
    omega
  · next h0 =>
    have hne : (2 ^ 23 + f) * 2 ^ (e - 1) ≠ 0 := by positivity
    have hl : ((2 ^ 23 + f) * 2 ^ (e - 1)).log2 = 23 + (e - 1) := by
      rw [Nat.log2_eq_iff hne]
      constructor
      · rw [pow_add]; exact Nat.mul_le_mul_right _ (by omega)
      · rw [show 23 + (e - 1) + 1 = 24 + (e - 1) by omega, pow_add]
        exact Nat.mul_lt_mul_of_pos_right (by omega) (by positivity)
    rw [hl, show 23 + (e - 1) - 23 = e - 1 by omega,
      show (2 ^ 23 + f) * 2 ^ (e - 1) * d = (2 ^ 23 + f) * (d * 2 ^ (e - 1)) by ring,
      roundHalfEven_exact _ _ (by positivity)]
    have he : (e - 1) * 2 ^ 23 + 2 ^ 23 = 2 ^ 23 * e := by
      obtain ⟨e', rfl⟩ := Nat.exists_eq_succ_of_ne_zero h0
      simp; ring
    omega

/-- The units of a magnitude are monotone in it. -/
theorem magUnits_mono (m m' : Nat) (h : m ≤ m') : magUnits m ≤ magUnits m' := by
  have hdm := Nat.div_add_mod m (2 ^ 23)
  have hlt := Nat.mod_lt m (show 0 < 2 ^ 23 by decide)
  have hdm' := Nat.div_add_mod m' (2 ^ 23)
  have hlt' := Nat.mod_lt m' (show 0 < 2 ^ 23 by decide)
  unfold magUnits
  generalize m / 2 ^ 23 = e at *
  generalize m % 2 ^ 23 = f at *
  generalize m' / 2 ^ 23 = e' at *
  generalize m' % 2 ^ 23 = f' at *
  have hee : e ≤ e' := by omega
  split
  · split
    · omega
    · have : 1 ≤ 2 ^ (e' - 1) := Nat.one_le_two_pow
      nlinarith
  · next h0 =>
    rw [if_neg (by omega)]
    rcases Nat.lt_or_eq_of_le hee with hl | rfl
    · have h1 : 2 ^ (e - 1) * 2 ≤ 2 ^ (e' - 1) := by
        rw [← pow_succ]; exact Nat.pow_le_pow_right (by decide) (by omega)
      nlinarith [Nat.one_le_two_pow (n := e - 1)]
    · exact Nat.mul_le_mul_right _ (by omega)

theorem magUnits_pos (m : Nat) (h : 0 < m) : 0 < magUnits m := by
  have hdm := Nat.div_add_mod m (2 ^ 23)
  unfold magUnits
  split
  · omega
  · positivity

/-! ### The operations on finite numbers that are not negative -/

theorem isInf_packFloat (b : Bool) (m : Nat) (h : m < 2 ^ 31) : isInf (packFloat b m) = decide (m = infMag) := by
  unfold isInf; rw [fMag_packFloat b m h]

theorem units_packFloat (b : Bool) (m : Nat) (h : m < 2 ^ 31) : units (packFloat b m) = magUnits m := by
  unfold units; rw [fMag_packFloat b m h]

/-- The product by a number of magnitude one is the other operand with the product's sign (R94). -/
theorem fmul_unit (u g : Word) (hu : units u = 2 ^ 149) (hn : isNaN u = false) (hi : isInf u = false)
    (hm : fMag u ≠ 0) (hg : isNaN g = false) : fmul u g = packFloat (fSign u != fSign g) (fMag g) := by
  unfold fmul
  have hle := (isNaN_false_iff g).1 hg
  simp only [hn, hg, hi, Bool.or_self, Bool.false_or, Bool.false_eq_true, if_false]
  by_cases h : isInf g = true
  · have : fMag g = infMag := by simpa [isInf] using h
    simp [h, hm, this, infMag]
  · have hne : fMag g ≠ infMag := by simpa [isInf] using h
    simp only [h, Bool.false_eq_true, if_false]
    rw [hu, Nat.mul_comm]
    unfold units
    rw [roundMag_magUnits (fMag g) (2 ^ 149) (by omega) (by positivity)]

theorem fmul_one (g : Word) (hg : isNaN g = false) : fmul one g = g := by
  rw [fmul_unit one g (by decide +kernel) (by decide) (by decide) (by decide) hg,
    show fSign one = false from rfl, Bool.false_bne, packFloat_fields]

theorem fmul_negOne (g : Word) (hg : isNaN g = false) : fmul negOne g = fneg g := by
  rw [fmul_unit negOne g (by decide +kernel) (by decide) (by decide) (by decide) hg,
    show fSign negOne = true from rfl, Bool.true_bne, fneg_eq_packFloat]

/-- A finite number by a finite one that is not zero, neither negative. -/
theorem fdiv_packFloat (m d : Nat) (hm : m < infMag) (hd : d < infMag) (h0 : d ≠ 0) :
    fdiv (packFloat false m) (packFloat false d)
      = packFloat false (roundMag (magUnits m * 2 ^ 149) (magUnits d)) := by
  have hm' := Nat.lt_trans hm infMag_lt
  have hd' := Nat.lt_trans hd infMag_lt
  unfold fdiv
  simp only [isNaN_packFloat false m (Nat.le_of_lt hm), isNaN_packFloat false d (Nat.le_of_lt hd),
    isInf_packFloat _ _ hm', isInf_packFloat _ _ hd', fMag_packFloat _ _ hm', fMag_packFloat _ _ hd',
    fSign_packFloat _ _ hm', fSign_packFloat _ _ hd', units_packFloat _ _ hm', units_packFloat _ _ hd']
  simp [Nat.ne_of_lt hm, Nat.ne_of_lt hd, h0]

/-- The product of two finite numbers that are not negative. -/
theorem fmul_packFloat (m d : Nat) (hm : m < infMag) (hd : d < infMag) :
    fmul (packFloat false m) (packFloat false d)
      = packFloat false (roundMag (magUnits m * magUnits d) (2 ^ 149)) := by
  have hm' := Nat.lt_trans hm infMag_lt
  have hd' := Nat.lt_trans hd infMag_lt
  unfold fmul
  simp only [isNaN_packFloat false m (Nat.le_of_lt hm), isNaN_packFloat false d (Nat.le_of_lt hd),
    isInf_packFloat _ _ hm', isInf_packFloat _ _ hd',
    fSign_packFloat _ _ hm', fSign_packFloat _ _ hd', units_packFloat _ _ hm', units_packFloat _ _ hd']
  simp [Nat.ne_of_lt hm, Nat.ne_of_lt hd]

/-- The magnitude that rounding to an integer gives (R19). -/
def roundedMag (m : Nat) : Nat :=
  if m = infMag then infMag else roundMag ((2 * magUnits m + 2 ^ 149) / 2 ^ 150 * 2 ^ 149) 1

theorem roundedMag_le (m : Nat) : roundedMag m ≤ infMag := by
  unfold roundedMag; split
  · exact Nat.le_refl _
  · exact roundMag_le _ _

theorem fround_packFloat (m : Nat) (hm : m ≤ infMag) : fround (packFloat false m) = packFloat false (roundedMag m) := by
  have hm' := Nat.lt_of_le_of_lt hm infMag_lt
  unfold fround roundedMag
  simp only [isNaN_packFloat false m hm, isInf_packFloat _ _ hm', fSign_packFloat _ _ hm', units_packFloat _ _ hm']
  by_cases h : m = infMag <;> simp [h]

theorem roundedMag_mono (m m' : Nat) (h : m ≤ m') (h' : m' ≤ infMag) : roundedMag m ≤ roundedMag m' := by
  unfold roundedMag
  by_cases e' : m' = infMag
  · rw [if_pos e']; exact roundedMag_le m
  · rw [if_neg e', if_neg (by omega)]
    refine roundMag_mono _ _ _ _ (by decide) (by decide) (Nat.mul_le_mul_right _ (Nat.mul_le_mul_right _ ?_))
    exact Nat.div_le_div_right (by have := magUnits_mono m m' h; omega)

/-- The count that a magnitude gives (R20). -/
def countOfMag (m : Nat) : Nat := if m = infMag then 2 ^ 32 - 1 else min (magUnits m / 2 ^ 149) (2 ^ 32 - 1)

theorem countOfMag_le (m : Nat) : countOfMag m ≤ 2 ^ 32 - 1 := by
  unfold countOfMag; split
  · exact Nat.le_refl _
  · exact Nat.min_le_right _ _

theorem countOfMag_mono (m m' : Nat) (h : m ≤ m') (h' : m' ≤ infMag) : countOfMag m ≤ countOfMag m' := by
  unfold countOfMag
  by_cases e' : m' = infMag
  · rw [if_pos e']; exact countOfMag_le m
  · rw [if_neg e', if_neg (by omega)]
    exact min_le_min_right _ (Nat.div_le_div_right (magUnits_mono m m' h))

theorem toNat_f2uSat_packFloat (m : Nat) (hm : m ≤ infMag) : (f2uSat (packFloat false m)).toNat = countOfMag m := by
  have hm' := Nat.lt_of_le_of_lt hm infMag_lt
  unfold f2uSat
  by_cases h0 : m = 0
  · have : fgt (packFloat false m) posZero = false := by
      rw [Bool.eq_false_iff]; intro hc
      have := (fgt_zero_iff _).1 hc
      rw [fMag_packFloat _ _ hm'] at this
      omega
    rw [this, if_neg Bool.false_ne_true, h0]; decide
  · have : fgt (packFloat false m) posZero = true := by
      rw [fgt_zero_iff, fMag_packFloat _ _ hm', fSign_packFloat _ _ hm']
      exact ⟨hm, rfl, by omega⟩
    rw [this, if_pos rfl, isInf_packFloat _ _ hm', units_packFloat _ _ hm']
    unfold countOfMag
    by_cases e : m = infMag
    · simp [e]
    · have hd : decide (m = infMag) = false := decide_eq_false e
      rw [hd, if_neg Bool.false_ne_true, if_neg e, BitVec.toNat_ofNat]
      exact Nat.mod_eq_of_lt (by omega)

/-! ### Counts below 2^24 are exact (R18) -/

/-- The magnitude of a small count. -/
theorem exists_mag_of_count (n : Nat) (hn : n < 2 ^ 24) : ∃ m, m < infMag ∧ magUnits m = n * 2 ^ 149 := by
  by_cases h0 : n = 0
  · exact ⟨0, by decide, by rw [h0]; rfl⟩
  · have hl1 := Nat.log2_self_le h0
    have hl2 : n < 2 ^ (n.log2 + 1) := Nat.lt_log2_self
    have hl3 : n.log2 < 24 := (Nat.log2_lt h0).2 hn
    generalize n.log2 = l at *
    have hs : 2 ^ 23 = 2 ^ l * 2 ^ (23 - l) := by rw [← pow_add]; congr 1; omega
    have hs' : 2 ^ 24 = 2 ^ (l + 1) * 2 ^ (23 - l) := by rw [← pow_add]; congr 1; omega
    have h1 : 2 ^ 23 ≤ n * 2 ^ (23 - l) := by rw [hs]; exact Nat.mul_le_mul_right _ hl1
    have h2 : n * 2 ^ (23 - l) < 2 ^ 24 := by rw [hs']; exact Nat.mul_lt_mul_of_pos_right hl2 (by positivity)
    have hp : n * 2 ^ 149 = n * 2 ^ (23 - l) * 2 ^ (126 + l) := by
      rw [Nat.mul_assoc, ← pow_add]; congr 2; omega
    rw [hp]
    generalize n * 2 ^ (23 - l) = f at *
    refine ⟨(127 + l) * 2 ^ 23 + (f - 2 ^ 23), ?_, ?_⟩
    · unfold infMag; omega
    · unfold magUnits
      rw [show ((127 + l) * 2 ^ 23 + (f - 2 ^ 23)) / 2 ^ 23 = 127 + l by omega,
        show ((127 + l) * 2 ^ 23 + (f - 2 ^ 23)) % 2 ^ 23 = f - 2 ^ 23 by omega, if_neg (by omega),
        show 2 ^ 23 + (f - 2 ^ 23) = f by omega, show 127 + l - 1 = 126 + l by omega]

/-- The conversion of a small count, as a magnitude whose value is the count. -/
theorem u2f_small (n : Word) (hn : n.toNat < 2 ^ 24) :
    ∃ m, m < infMag ∧ magUnits m = n.toNat * 2 ^ 149 ∧ u2f n = packFloat false m := by
  obtain ⟨m, hm, hu⟩ := exists_mag_of_count n.toNat hn
  refine ⟨m, hm, hu, ?_⟩
  unfold u2f
  rw [← hu]
  have := roundMag_magUnits m 1 hm (by decide)
  rw [Nat.mul_one] at this
  rw [this]

end Sys2Proof.Machine
end

