-- ==== Sys2Proof/Laws/State.lean ====
section
/-! SUPPORT. What each field of the state is after each update: one lemma per field and update. An update that
stores a float is unfolded before `rfl`, which would else try to compute the arithmetic. -/

namespace Sys2Proof.Machine

/-- Two states are equal when their fields are. -/
theorem State.ext_fields (s t : State) (h1 : s.params = t.params) (h2 : s.mode = t.mode) (h3 : s.err = t.err)
    (h4 : s.cursor = t.cursor) (h5 : s.nch = t.nch) (h6 : s.fs = t.fs) (h7 : s.fadeStart = t.fadeStart)
    (h8 : s.fadeEnd = t.fadeEnd) (h9 : s.fadeLen = t.fadeLen) (h10 : s.silCnt = t.silCnt) (h11 : s.gain = t.gain)
    (h12 : s.dist = t.dist) (h13 : s.banks = t.banks) (h14 : s.pending = t.pending)
    (h15 : s.procLeft = t.procLeft) (h16 : s.input = t.input) (h17 : s.output = t.output) (h18 : s.por = t.por) :
    s = t := by
  cases s; cases t; subst h1 h2 h3 h4 h5 h6 h7 h8 h9 h10 h11 h12 h13 h14 h15 h16 h17 h18; rfl

/-! ### takeWords -/

@[simp] theorem takeWords_params (s : State) (n : Nat) : (s.takeWords n).params = s.params := rfl
@[simp] theorem takeWords_mode (s : State) (n : Nat) : (s.takeWords n).mode = s.mode := rfl
@[simp] theorem takeWords_err (s : State) (n : Nat) : (s.takeWords n).err = s.err := rfl
@[simp] theorem takeWords_cursor (s : State) (n : Nat) : (s.takeWords n).cursor = s.cursor + (n - s.pending.length) := rfl
@[simp] theorem takeWords_nch (s : State) (n : Nat) : (s.takeWords n).nch = s.nch := rfl
@[simp] theorem takeWords_fs (s : State) (n : Nat) : (s.takeWords n).fs = s.fs := rfl
@[simp] theorem takeWords_fadeStart (s : State) (n : Nat) : (s.takeWords n).fadeStart = s.fadeStart := rfl
@[simp] theorem takeWords_fadeEnd (s : State) (n : Nat) : (s.takeWords n).fadeEnd = s.fadeEnd := rfl
@[simp] theorem takeWords_fadeLen (s : State) (n : Nat) : (s.takeWords n).fadeLen = s.fadeLen := rfl
@[simp] theorem takeWords_silCnt (s : State) (n : Nat) : (s.takeWords n).silCnt = s.silCnt := rfl
@[simp] theorem takeWords_gain (s : State) (n : Nat) : (s.takeWords n).gain = s.gain := rfl
@[simp] theorem takeWords_dist (s : State) (n : Nat) : (s.takeWords n).dist = s.dist := rfl
@[simp] theorem takeWords_banks (s : State) (n : Nat) : (s.takeWords n).banks = s.banks := rfl
@[simp] theorem takeWords_pending (s : State) (n : Nat) : (s.takeWords n).pending = [] := rfl
@[simp] theorem takeWords_procLeft (s : State) (n : Nat) : (s.takeWords n).procLeft = s.procLeft := rfl
@[simp] theorem takeWords_input (s : State) (n : Nat) : (s.takeWords n).input = s.input.drop (n - s.pending.length) := rfl
@[simp] theorem takeWords_output (s : State) (n : Nat) : (s.takeWords n).output = s.output := rfl
@[simp] theorem takeWords_por (s : State) (n : Nat) : (s.takeWords n).por = s.por := rfl

/-! ### awaitWords -/

@[simp] theorem awaitWords_params (s : State) : (s.awaitWords).params = s.params := rfl
@[simp] theorem awaitWords_mode (s : State) : (s.awaitWords).mode = s.mode := rfl
@[simp] theorem awaitWords_err (s : State) : (s.awaitWords).err = s.err := rfl
@[simp] theorem awaitWords_cursor (s : State) : (s.awaitWords).cursor = s.cursor + s.input.length := rfl
@[simp] theorem awaitWords_nch (s : State) : (s.awaitWords).nch = s.nch := rfl
@[simp] theorem awaitWords_fs (s : State) : (s.awaitWords).fs = s.fs := rfl
@[simp] theorem awaitWords_fadeStart (s : State) : (s.awaitWords).fadeStart = s.fadeStart := rfl
@[simp] theorem awaitWords_fadeEnd (s : State) : (s.awaitWords).fadeEnd = s.fadeEnd := rfl
@[simp] theorem awaitWords_fadeLen (s : State) : (s.awaitWords).fadeLen = s.fadeLen := rfl
@[simp] theorem awaitWords_silCnt (s : State) : (s.awaitWords).silCnt = s.silCnt := rfl
@[simp] theorem awaitWords_gain (s : State) : (s.awaitWords).gain = s.gain := rfl
@[simp] theorem awaitWords_dist (s : State) : (s.awaitWords).dist = s.dist := rfl
@[simp] theorem awaitWords_banks (s : State) : (s.awaitWords).banks = s.banks := rfl
@[simp] theorem awaitWords_pending (s : State) : (s.awaitWords).pending = s.pending ++ s.input := rfl
@[simp] theorem awaitWords_procLeft (s : State) : (s.awaitWords).procLeft = s.procLeft := rfl
@[simp] theorem awaitWords_input (s : State) : (s.awaitWords).input = [] := rfl
@[simp] theorem awaitWords_output (s : State) : (s.awaitWords).output = s.output := rfl
@[simp] theorem awaitWords_por (s : State) : (s.awaitWords).por = s.por := rfl

/-! ### emit -/

@[simp] theorem emit_params (s : State) (ws : List Word) : (s.emit ws).params = s.params := rfl
@[simp] theorem emit_mode (s : State) (ws : List Word) : (s.emit ws).mode = s.mode := rfl
@[simp] theorem emit_err (s : State) (ws : List Word) : (s.emit ws).err = s.err := rfl
@[simp] theorem emit_cursor (s : State) (ws : List Word) : (s.emit ws).cursor = s.cursor := rfl
@[simp] theorem emit_nch (s : State) (ws : List Word) : (s.emit ws).nch = s.nch := rfl
@[simp] theorem emit_fs (s : State) (ws : List Word) : (s.emit ws).fs = s.fs := rfl
@[simp] theorem emit_fadeStart (s : State) (ws : List Word) : (s.emit ws).fadeStart = s.fadeStart := rfl
@[simp] theorem emit_fadeEnd (s : State) (ws : List Word) : (s.emit ws).fadeEnd = s.fadeEnd := rfl
@[simp] theorem emit_fadeLen (s : State) (ws : List Word) : (s.emit ws).fadeLen = s.fadeLen := rfl
@[simp] theorem emit_silCnt (s : State) (ws : List Word) : (s.emit ws).silCnt = s.silCnt := rfl
@[simp] theorem emit_gain (s : State) (ws : List Word) : (s.emit ws).gain = s.gain := rfl
@[simp] theorem emit_dist (s : State) (ws : List Word) : (s.emit ws).dist = s.dist := rfl
@[simp] theorem emit_banks (s : State) (ws : List Word) : (s.emit ws).banks = s.banks := rfl
@[simp] theorem emit_pending (s : State) (ws : List Word) : (s.emit ws).pending = s.pending := rfl
@[simp] theorem emit_procLeft (s : State) (ws : List Word) : (s.emit ws).procLeft = s.procLeft := rfl
@[simp] theorem emit_input (s : State) (ws : List Word) : (s.emit ws).input = s.input := rfl
@[simp] theorem emit_output (s : State) (ws : List Word) : (s.emit ws).output = s.output ++ ws := rfl
@[simp] theorem emit_por (s : State) (ws : List Word) : (s.emit ws).por = s.por := rfl

/-! ### raiseFault -/

@[simp] theorem raiseFault_params (s : State) (code : FaultCode) : (s.raiseFault code).params = s.params := rfl
@[simp] theorem raiseFault_mode (s : State) (code : FaultCode) : (s.raiseFault code).mode = .fault := rfl
@[simp] theorem raiseFault_err (s : State) (code : FaultCode) : (s.raiseFault code).err = code := rfl
@[simp] theorem raiseFault_cursor (s : State) (code : FaultCode) : (s.raiseFault code).cursor = s.cursor := rfl
@[simp] theorem raiseFault_nch (s : State) (code : FaultCode) : (s.raiseFault code).nch = s.nch := rfl
@[simp] theorem raiseFault_fs (s : State) (code : FaultCode) : (s.raiseFault code).fs = s.fs := rfl
@[simp] theorem raiseFault_fadeStart (s : State) (code : FaultCode) : (s.raiseFault code).fadeStart = s.fadeStart := rfl
@[simp] theorem raiseFault_fadeEnd (s : State) (code : FaultCode) : (s.raiseFault code).fadeEnd = s.fadeEnd := rfl
@[simp] theorem raiseFault_fadeLen (s : State) (code : FaultCode) : (s.raiseFault code).fadeLen = s.fadeLen := rfl
@[simp] theorem raiseFault_silCnt (s : State) (code : FaultCode) : (s.raiseFault code).silCnt = s.silCnt := rfl
@[simp] theorem raiseFault_gain (s : State) (code : FaultCode) : (s.raiseFault code).gain = s.gain := rfl
@[simp] theorem raiseFault_dist (s : State) (code : FaultCode) : (s.raiseFault code).dist = s.dist := rfl
@[simp] theorem raiseFault_banks (s : State) (code : FaultCode) : (s.raiseFault code).banks = s.banks := rfl
@[simp] theorem raiseFault_pending (s : State) (code : FaultCode) : (s.raiseFault code).pending = s.pending := rfl
@[simp] theorem raiseFault_procLeft (s : State) (code : FaultCode) : (s.raiseFault code).procLeft = s.procLeft := rfl
@[simp] theorem raiseFault_input (s : State) (code : FaultCode) : (s.raiseFault code).input = s.input := rfl
@[simp] theorem raiseFault_output (s : State) (code : FaultCode) : (s.raiseFault code).output = s.output := rfl
@[simp] theorem raiseFault_por (s : State) (code : FaultCode) : (s.raiseFault code).por = s.por := rfl

/-! ### advanceBanks -/

@[simp] theorem advanceBanks_params (s : State) (xs : List Word) : (advanceBanks s xs).params = s.params := rfl
@[simp] theorem advanceBanks_mode (s : State) (xs : List Word) : (advanceBanks s xs).mode = s.mode := rfl
@[simp] theorem advanceBanks_err (s : State) (xs : List Word) : (advanceBanks s xs).err = s.err := rfl
@[simp] theorem advanceBanks_cursor (s : State) (xs : List Word) : (advanceBanks s xs).cursor = s.cursor := rfl
@[simp] theorem advanceBanks_nch (s : State) (xs : List Word) : (advanceBanks s xs).nch = s.nch := rfl
@[simp] theorem advanceBanks_fs (s : State) (xs : List Word) : (advanceBanks s xs).fs = s.fs := rfl
@[simp] theorem advanceBanks_fadeStart (s : State) (xs : List Word) : (advanceBanks s xs).fadeStart = s.fadeStart := rfl
@[simp] theorem advanceBanks_fadeEnd (s : State) (xs : List Word) : (advanceBanks s xs).fadeEnd = s.fadeEnd := rfl
@[simp] theorem advanceBanks_fadeLen (s : State) (xs : List Word) : (advanceBanks s xs).fadeLen = s.fadeLen := rfl
@[simp] theorem advanceBanks_silCnt (s : State) (xs : List Word) : (advanceBanks s xs).silCnt = s.silCnt := rfl
@[simp] theorem advanceBanks_gain (s : State) (xs : List Word) : (advanceBanks s xs).gain = s.gain := rfl
@[simp] theorem advanceBanks_dist (s : State) (xs : List Word) : (advanceBanks s xs).dist = s.dist := rfl
@[simp] theorem advanceBanks_banks (s : State) (xs : List Word) : (advanceBanks s xs).banks = s.banks.mapIdx (bankAfter s xs) := rfl
@[simp] theorem advanceBanks_pending (s : State) (xs : List Word) : (advanceBanks s xs).pending = s.pending := rfl
@[simp] theorem advanceBanks_procLeft (s : State) (xs : List Word) : (advanceBanks s xs).procLeft = s.procLeft := rfl
@[simp] theorem advanceBanks_input (s : State) (xs : List Word) : (advanceBanks s xs).input = s.input := rfl
@[simp] theorem advanceBanks_output (s : State) (xs : List Word) : (advanceBanks s xs).output = s.output := rfl
@[simp] theorem advanceBanks_por (s : State) (xs : List Word) : (advanceBanks s xs).por = s.por := rfl

/-! ### resetBanks -/

@[simp] theorem resetBanks_params (s : State) : (resetBanks s).params = s.params := rfl
@[simp] theorem resetBanks_mode (s : State) : (resetBanks s).mode = s.mode := rfl
@[simp] theorem resetBanks_err (s : State) : (resetBanks s).err = s.err := rfl
@[simp] theorem resetBanks_cursor (s : State) : (resetBanks s).cursor = s.cursor := rfl
@[simp] theorem resetBanks_nch (s : State) : (resetBanks s).nch = s.nch := rfl
@[simp] theorem resetBanks_fs (s : State) : (resetBanks s).fs = s.fs := rfl
@[simp] theorem resetBanks_fadeStart (s : State) : (resetBanks s).fadeStart = s.fadeStart := rfl
@[simp] theorem resetBanks_fadeEnd (s : State) : (resetBanks s).fadeEnd = s.fadeEnd := rfl
@[simp] theorem resetBanks_fadeLen (s : State) : (resetBanks s).fadeLen = s.fadeLen := rfl
@[simp] theorem resetBanks_silCnt (s : State) : (resetBanks s).silCnt = s.silCnt := rfl
@[simp] theorem resetBanks_gain (s : State) : (resetBanks s).gain = s.gain := rfl
@[simp] theorem resetBanks_dist (s : State) : (resetBanks s).dist = s.dist := rfl
@[simp] theorem resetBanks_banks (s : State) : (resetBanks s).banks = s.banks.mapIdx fun c b => if c < s.nch.toNat then fbReset b else b := rfl
@[simp] theorem resetBanks_pending (s : State) : (resetBanks s).pending = s.pending := rfl
@[simp] theorem resetBanks_procLeft (s : State) : (resetBanks s).procLeft = s.procLeft := rfl
@[simp] theorem resetBanks_input (s : State) : (resetBanks s).input = s.input := rfl
@[simp] theorem resetBanks_output (s : State) : (resetBanks s).output = s.output := rfl
@[simp] theorem resetBanks_por (s : State) : (resetBanks s).por = s.por := rfl

/-! ### resetEffects -/

@[simp] theorem resetEffects_params (s : State) : (resetEffects s).params = s.params := rfl
@[simp] theorem resetEffects_mode (s : State) : (resetEffects s).mode = s.mode := rfl
@[simp] theorem resetEffects_err (s : State) : (resetEffects s).err = s.err := rfl
@[simp] theorem resetEffects_cursor (s : State) : (resetEffects s).cursor = s.cursor := rfl
@[simp] theorem resetEffects_nch (s : State) : (resetEffects s).nch = s.nch := rfl
@[simp] theorem resetEffects_fs (s : State) : (resetEffects s).fs = s.fs := rfl
@[simp] theorem resetEffects_fadeStart (s : State) : (resetEffects s).fadeStart = s.fadeStart := rfl
@[simp] theorem resetEffects_fadeEnd (s : State) : (resetEffects s).fadeEnd = s.fadeEnd := rfl
@[simp] theorem resetEffects_fadeLen (s : State) : (resetEffects s).fadeLen = s.fadeLen := rfl
@[simp] theorem resetEffects_silCnt (s : State) : (resetEffects s).silCnt = s.fadeEnd := rfl
@[simp] theorem resetEffects_gain (s : State) : (resetEffects s).gain = s.gain := rfl
@[simp] theorem resetEffects_dist (s : State) : (resetEffects s).dist = s.dist := rfl
@[simp] theorem resetEffects_banks (s : State) : (resetEffects s).banks = (resetBanks s).banks := rfl
@[simp] theorem resetEffects_pending (s : State) : (resetEffects s).pending = s.pending := rfl
@[simp] theorem resetEffects_procLeft (s : State) : (resetEffects s).procLeft = s.procLeft := rfl
@[simp] theorem resetEffects_input (s : State) : (resetEffects s).input = s.input := rfl
@[simp] theorem resetEffects_output (s : State) : (resetEffects s).output = s.output := rfl
@[simp] theorem resetEffects_por (s : State) : (resetEffects s).por = s.por := rfl

/-! ### sfThresh -/

@[simp] theorem sfThresh_params (s : State) (fs : Word) : (sfThresh fs s).params = s.params := by
  unfold sfThresh; rfl
@[simp] theorem sfThresh_mode (s : State) (fs : Word) : (sfThresh fs s).mode = s.mode := by
  unfold sfThresh; rfl
@[simp] theorem sfThresh_err (s : State) (fs : Word) : (sfThresh fs s).err = s.err := by
  unfold sfThresh; rfl
@[simp] theorem sfThresh_cursor (s : State) (fs : Word) : (sfThresh fs s).cursor = s.cursor := by
  unfold sfThresh; rfl
@[simp] theorem sfThresh_nch (s : State) (fs : Word) : (sfThresh fs s).nch = s.nch := by
  unfold sfThresh; rfl
@[simp] theorem sfThresh_fs (s : State) (fs : Word) : (sfThresh fs s).fs = s.fs := by
  unfold sfThresh; rfl
@[simp] theorem sfThresh_fadeStart (s : State) (fs : Word) : (sfThresh fs s).fadeStart = ms2n s.params.fadeStartMs fs := by
  unfold sfThresh; rfl
@[simp] theorem sfThresh_fadeEnd (s : State) (fs : Word) : (sfThresh fs s).fadeEnd = ms2n s.params.fadeEndMs fs := by
  unfold sfThresh; rfl
@[simp] theorem sfThresh_fadeLen (s : State) (fs : Word) : (sfThresh fs s).fadeLen = ms2n s.params.fadeEndMs fs - ms2n s.params.fadeStartMs fs := by
  unfold sfThresh; rfl
@[simp] theorem sfThresh_silCnt (s : State) (fs : Word) : (sfThresh fs s).silCnt = s.silCnt := by
  unfold sfThresh; rfl
@[simp] theorem sfThresh_gain (s : State) (fs : Word) : (sfThresh fs s).gain = s.gain := by
  unfold sfThresh; rfl
@[simp] theorem sfThresh_dist (s : State) (fs : Word) : (sfThresh fs s).dist = s.dist := by
  unfold sfThresh; rfl
@[simp] theorem sfThresh_banks (s : State) (fs : Word) : (sfThresh fs s).banks = s.banks := by
  unfold sfThresh; rfl
@[simp] theorem sfThresh_pending (s : State) (fs : Word) : (sfThresh fs s).pending = s.pending := by
  unfold sfThresh; rfl
@[simp] theorem sfThresh_procLeft (s : State) (fs : Word) : (sfThresh fs s).procLeft = s.procLeft := by
  unfold sfThresh; rfl
@[simp] theorem sfThresh_input (s : State) (fs : Word) : (sfThresh fs s).input = s.input := by
  unfold sfThresh; rfl
@[simp] theorem sfThresh_output (s : State) (fs : Word) : (sfThresh fs s).output = s.output := by
  unfold sfThresh; rfl
@[simp] theorem sfThresh_por (s : State) (fs : Word) : (sfThresh fs s).por = s.por := by
  unfold sfThresh; rfl

/-! ### sfUpdate -/

@[simp] theorem sfUpdate_params (s : State) (allz : Bool) : (sfUpdate allz s).params = s.params := rfl
@[simp] theorem sfUpdate_mode (s : State) (allz : Bool) : (sfUpdate allz s).mode = s.mode := rfl
@[simp] theorem sfUpdate_err (s : State) (allz : Bool) : (sfUpdate allz s).err = s.err := rfl
@[simp] theorem sfUpdate_cursor (s : State) (allz : Bool) : (sfUpdate allz s).cursor = s.cursor := rfl
@[simp] theorem sfUpdate_nch (s : State) (allz : Bool) : (sfUpdate allz s).nch = s.nch := rfl
@[simp] theorem sfUpdate_fs (s : State) (allz : Bool) : (sfUpdate allz s).fs = s.fs := rfl
@[simp] theorem sfUpdate_fadeStart (s : State) (allz : Bool) : (sfUpdate allz s).fadeStart = s.fadeStart := rfl
@[simp] theorem sfUpdate_fadeEnd (s : State) (allz : Bool) : (sfUpdate allz s).fadeEnd = s.fadeEnd := rfl
@[simp] theorem sfUpdate_fadeLen (s : State) (allz : Bool) : (sfUpdate allz s).fadeLen = s.fadeLen := rfl
@[simp] theorem sfUpdate_silCnt (s : State) (allz : Bool) : (sfUpdate allz s).silCnt = if allz then BitVec.ofNat 32 (min (s.silCnt.toNat + 1) s.fadeEnd.toNat) else 0#32 := rfl
@[simp] theorem sfUpdate_gain (s : State) (allz : Bool) : (sfUpdate allz s).gain = s.gain := rfl
@[simp] theorem sfUpdate_dist (s : State) (allz : Bool) : (sfUpdate allz s).dist = s.dist := rfl
@[simp] theorem sfUpdate_banks (s : State) (allz : Bool) : (sfUpdate allz s).banks = s.banks := rfl
@[simp] theorem sfUpdate_pending (s : State) (allz : Bool) : (sfUpdate allz s).pending = s.pending := rfl
@[simp] theorem sfUpdate_procLeft (s : State) (allz : Bool) : (sfUpdate allz s).procLeft = s.procLeft := rfl
@[simp] theorem sfUpdate_input (s : State) (allz : Bool) : (sfUpdate allz s).input = s.input := rfl
@[simp] theorem sfUpdate_output (s : State) (allz : Bool) : (sfUpdate allz s).output = s.output := rfl
@[simp] theorem sfUpdate_por (s : State) (allz : Bool) : (sfUpdate allz s).por = s.por := rfl

/-! ### initEffects -/

@[simp] theorem initEffects_params (s : State) (nch : Nat) (fs : Word) : (initEffects nch fs s).params = s.params := by
  simp only [initEffects, resetEffects, resetBanks, sfThresh]
@[simp] theorem initEffects_mode (s : State) (nch : Nat) (fs : Word) : (initEffects nch fs s).mode = .ready := by
  simp only [initEffects, resetEffects, resetBanks, sfThresh]
@[simp] theorem initEffects_err (s : State) (nch : Nat) (fs : Word) : (initEffects nch fs s).err = s.err := by
  simp only [initEffects, resetEffects, resetBanks, sfThresh]
@[simp] theorem initEffects_cursor (s : State) (nch : Nat) (fs : Word) : (initEffects nch fs s).cursor = s.cursor := by
  simp only [initEffects, resetEffects, resetBanks, sfThresh]
@[simp] theorem initEffects_nch (s : State) (nch : Nat) (fs : Word) : (initEffects nch fs s).nch = BitVec.ofNat 32 nch := by
  simp only [initEffects, resetEffects, resetBanks, sfThresh]
@[simp] theorem initEffects_fs (s : State) (nch : Nat) (fs : Word) : (initEffects nch fs s).fs = fs := by
  simp only [initEffects, resetEffects, resetBanks, sfThresh]
@[simp] theorem initEffects_fadeStart (s : State) (nch : Nat) (fs : Word) : (initEffects nch fs s).fadeStart = ms2n s.params.fadeStartMs fs := by
  simp only [initEffects, resetEffects, resetBanks, sfThresh]
@[simp] theorem initEffects_fadeEnd (s : State) (nch : Nat) (fs : Word) : (initEffects nch fs s).fadeEnd = ms2n s.params.fadeEndMs fs := by
  simp only [initEffects, resetEffects, resetBanks, sfThresh]
@[simp] theorem initEffects_fadeLen (s : State) (nch : Nat) (fs : Word) : (initEffects nch fs s).fadeLen = ms2n s.params.fadeEndMs fs - ms2n s.params.fadeStartMs fs := by
  simp only [initEffects, resetEffects, resetBanks, sfThresh]
@[simp] theorem initEffects_silCnt (s : State) (nch : Nat) (fs : Word) : (initEffects nch fs s).silCnt = ms2n s.params.fadeEndMs fs := by
  simp only [initEffects, resetEffects, resetBanks, sfThresh]
@[simp] theorem initEffects_gain (s : State) (nch : Nat) (fs : Word) : (initEffects nch fs s).gain = s.gain := by
  simp only [initEffects, resetEffects, resetBanks, sfThresh]
@[simp] theorem initEffects_dist (s : State) (nch : Nat) (fs : Word) : (initEffects nch fs s).dist = s.dist := by
  simp only [initEffects, resetEffects, resetBanks, sfThresh]
@[simp] theorem initEffects_banks (s : State) (nch : Nat) (fs : Word) : (initEffects nch fs s).banks = s.banks.mapIdx fun c b => if c < (BitVec.ofNat 32 nch).toNat then fbReset b else b := by
  simp only [initEffects, resetEffects, resetBanks, sfThresh]; rfl
@[simp] theorem initEffects_pending (s : State) (nch : Nat) (fs : Word) : (initEffects nch fs s).pending = s.pending := by
  simp only [initEffects, resetEffects, resetBanks, sfThresh]
@[simp] theorem initEffects_procLeft (s : State) (nch : Nat) (fs : Word) : (initEffects nch fs s).procLeft = s.procLeft := by
  simp only [initEffects, resetEffects, resetBanks, sfThresh]
@[simp] theorem initEffects_input (s : State) (nch : Nat) (fs : Word) : (initEffects nch fs s).input = s.input := by
  simp only [initEffects, resetEffects, resetBanks, sfThresh]
@[simp] theorem initEffects_output (s : State) (nch : Nat) (fs : Word) : (initEffects nch fs s).output = s.output := by
  simp only [initEffects, resetEffects, resetBanks, sfThresh]
@[simp] theorem initEffects_por (s : State) (nch : Nat) (fs : Word) : (initEffects nch fs s).por = s.por := by
  simp only [initEffects, resetEffects, resetBanks, sfThresh]

/-! ### withFetchWord -/

@[simp] theorem withFetchWord_params (s : State) (nbits w : Nat) : (s.withFetchWord nbits w).params = s.params := rfl
@[simp] theorem withFetchWord_mode (s : State) (nbits w : Nat) : (s.withFetchWord nbits w).mode = s.mode := rfl
@[simp] theorem withFetchWord_err (s : State) (nbits w : Nat) : (s.withFetchWord nbits w).err = s.err := rfl
@[simp] theorem withFetchWord_cursor (s : State) (nbits w : Nat) : (s.withFetchWord nbits w).cursor = s.cursor := rfl
@[simp] theorem withFetchWord_nch (s : State) (nbits w : Nat) : (s.withFetchWord nbits w).nch = s.nch := rfl
@[simp] theorem withFetchWord_fs (s : State) (nbits w : Nat) : (s.withFetchWord nbits w).fs = s.fs := rfl
@[simp] theorem withFetchWord_fadeStart (s : State) (nbits w : Nat) : (s.withFetchWord nbits w).fadeStart = s.fadeStart := rfl
@[simp] theorem withFetchWord_fadeEnd (s : State) (nbits w : Nat) : (s.withFetchWord nbits w).fadeEnd = s.fadeEnd := rfl
@[simp] theorem withFetchWord_fadeLen (s : State) (nbits w : Nat) : (s.withFetchWord nbits w).fadeLen = s.fadeLen := rfl
@[simp] theorem withFetchWord_silCnt (s : State) (nbits w : Nat) : (s.withFetchWord nbits w).silCnt = s.silCnt := rfl
@[simp] theorem withFetchWord_gain (s : State) (nbits w : Nat) : (s.withFetchWord nbits w).gain = s.gain := rfl
@[simp] theorem withFetchWord_dist (s : State) (nbits w : Nat) : (s.withFetchWord nbits w).dist = s.dist := rfl
@[simp] theorem withFetchWord_banks (s : State) (nbits w : Nat) : (s.withFetchWord nbits w).banks = s.banks := rfl
@[simp] theorem withFetchWord_pending (s : State) (nbits w : Nat) : (s.withFetchWord nbits w).pending = [] := rfl
@[simp] theorem withFetchWord_procLeft (s : State) (nbits w : Nat) : (s.withFetchWord nbits w).procLeft = 0 := rfl
@[simp] theorem withFetchWord_input (s : State) (nbits w : Nat) : (s.withFetchWord nbits w).input = instructionWords s.nch.toNat nbits w := rfl
@[simp] theorem withFetchWord_output (s : State) (nbits w : Nat) : (s.withFetchWord nbits w).output = s.output := rfl
@[simp] theorem withFetchWord_por (s : State) (nbits w : Nat) : (s.withFetchWord nbits w).por = none := rfl

/-! ### powerOnAfter -/

@[simp] theorem powerOnAfter_params (s : State) (k : Nat) (cut : Host.Outcome State Fault Refusal) : (powerOnAfter s k cut).params = s.params := rfl
@[simp] theorem powerOnAfter_mode (s : State) (k : Nat) (cut : Host.Outcome State Fault Refusal) : (powerOnAfter s k cut).mode = .uninit := rfl
@[simp] theorem powerOnAfter_err (s : State) (k : Nat) (cut : Host.Outcome State Fault Refusal) : (powerOnAfter s k cut).err = .none := rfl
@[simp] theorem powerOnAfter_cursor (s : State) (k : Nat) (cut : Host.Outcome State Fault Refusal) : (powerOnAfter s k cut).cursor = 0 := rfl
@[simp] theorem powerOnAfter_nch (s : State) (k : Nat) (cut : Host.Outcome State Fault Refusal) : (powerOnAfter s k cut).nch = 0#32 := rfl
@[simp] theorem powerOnAfter_fs (s : State) (k : Nat) (cut : Host.Outcome State Fault Refusal) : (powerOnAfter s k cut).fs = 0#32 := rfl
@[simp] theorem powerOnAfter_fadeStart (s : State) (k : Nat) (cut : Host.Outcome State Fault Refusal) : (powerOnAfter s k cut).fadeStart = 0#32 := rfl
@[simp] theorem powerOnAfter_fadeEnd (s : State) (k : Nat) (cut : Host.Outcome State Fault Refusal) : (powerOnAfter s k cut).fadeEnd = 0#32 := rfl
@[simp] theorem powerOnAfter_fadeLen (s : State) (k : Nat) (cut : Host.Outcome State Fault Refusal) : (powerOnAfter s k cut).fadeLen = 0#32 := rfl
@[simp] theorem powerOnAfter_silCnt (s : State) (k : Nat) (cut : Host.Outcome State Fault Refusal) : (powerOnAfter s k cut).silCnt = 0#32 := rfl
@[simp] theorem powerOnAfter_gain (s : State) (k : Nat) (cut : Host.Outcome State Fault Refusal) : (powerOnAfter s k cut).gain = Smoother.powerOn s.params.gDefault .log := rfl
@[simp] theorem powerOnAfter_dist (s : State) (k : Nat) (cut : Host.Outcome State Fault Refusal) : (powerOnAfter s k cut).dist = Smoother.powerOn s.params.dDefault .lin := rfl
@[simp] theorem powerOnAfter_banks (s : State) (k : Nat) (cut : Host.Outcome State Fault Refusal) : (powerOnAfter s k cut).banks = List.replicate s.params.maxch Bank.zero := rfl
@[simp] theorem powerOnAfter_pending (s : State) (k : Nat) (cut : Host.Outcome State Fault Refusal) : (powerOnAfter s k cut).pending = [] := rfl
@[simp] theorem powerOnAfter_procLeft (s : State) (k : Nat) (cut : Host.Outcome State Fault Refusal) : (powerOnAfter s k cut).procLeft = 0 := rfl
@[simp] theorem powerOnAfter_input (s : State) (k : Nat) (cut : Host.Outcome State Fault Refusal) : (powerOnAfter s k cut).input = [] := rfl
@[simp] theorem powerOnAfter_output (s : State) (k : Nat) (cut : Host.Outcome State Fault Refusal) : (powerOnAfter s k cut).output = s.output ++ (newOutput s cut).take k := rfl
@[simp] theorem powerOnAfter_por (s : State) (k : Nat) (cut : Host.Outcome State Fault Refusal) : (powerOnAfter s k cut).por = none := rfl

/-! ### setSmoother -/

@[simp] theorem setSmoother_params (s : State) (p : SmIdx) (sm : Smoother) : (s.setSmoother p sm).params = s.params := by
  cases p <;> rfl
@[simp] theorem setSmoother_mode (s : State) (p : SmIdx) (sm : Smoother) : (s.setSmoother p sm).mode = s.mode := by
  cases p <;> rfl
@[simp] theorem setSmoother_err (s : State) (p : SmIdx) (sm : Smoother) : (s.setSmoother p sm).err = s.err := by
  cases p <;> rfl
@[simp] theorem setSmoother_cursor (s : State) (p : SmIdx) (sm : Smoother) : (s.setSmoother p sm).cursor = s.cursor := by
  cases p <;> rfl
@[simp] theorem setSmoother_nch (s : State) (p : SmIdx) (sm : Smoother) : (s.setSmoother p sm).nch = s.nch := by
  cases p <;> rfl
@[simp] theorem setSmoother_fs (s : State) (p : SmIdx) (sm : Smoother) : (s.setSmoother p sm).fs = s.fs := by
  cases p <;> rfl
@[simp] theorem setSmoother_fadeStart (s : State) (p : SmIdx) (sm : Smoother) : (s.setSmoother p sm).fadeStart = s.fadeStart := by
  cases p <;> rfl
@[simp] theorem setSmoother_fadeEnd (s : State) (p : SmIdx) (sm : Smoother) : (s.setSmoother p sm).fadeEnd = s.fadeEnd := by
  cases p <;> rfl
@[simp] theorem setSmoother_fadeLen (s : State) (p : SmIdx) (sm : Smoother) : (s.setSmoother p sm).fadeLen = s.fadeLen := by
  cases p <;> rfl
@[simp] theorem setSmoother_silCnt (s : State) (p : SmIdx) (sm : Smoother) : (s.setSmoother p sm).silCnt = s.silCnt := by
  cases p <;> rfl
@[simp] theorem setSmoother_banks (s : State) (p : SmIdx) (sm : Smoother) : (s.setSmoother p sm).banks = s.banks := by
  cases p <;> rfl
@[simp] theorem setSmoother_pending (s : State) (p : SmIdx) (sm : Smoother) : (s.setSmoother p sm).pending = s.pending := by
  cases p <;> rfl
@[simp] theorem setSmoother_procLeft (s : State) (p : SmIdx) (sm : Smoother) : (s.setSmoother p sm).procLeft = s.procLeft := by
  cases p <;> rfl
@[simp] theorem setSmoother_input (s : State) (p : SmIdx) (sm : Smoother) : (s.setSmoother p sm).input = s.input := by
  cases p <;> rfl
@[simp] theorem setSmoother_output (s : State) (p : SmIdx) (sm : Smoother) : (s.setSmoother p sm).output = s.output := by
  cases p <;> rfl
@[simp] theorem setSmoother_por (s : State) (p : SmIdx) (sm : Smoother) : (s.setSmoother p sm).por = s.por := by
  cases p <;> rfl
@[simp] theorem setSmoother_gain_gain (s : State) (sm : Smoother) : (s.setSmoother .gain sm).gain = sm := rfl
@[simp] theorem setSmoother_gain_dist (s : State) (sm : Smoother) : (s.setSmoother .gain sm).dist = s.dist := rfl
@[simp] theorem setSmoother_dist_gain (s : State) (sm : Smoother) : (s.setSmoother .dist sm).gain = s.gain := rfl
@[simp] theorem setSmoother_dist_dist (s : State) (sm : Smoother) : (s.setSmoother .dist sm).dist = sm := rfl
@[simp] theorem smoother_setSmoother (s : State) (p : SmIdx) (sm : Smoother) : (s.setSmoother p sm).smoother p = sm := by
  cases p <;> rfl

/-! ### smAdvance -/

@[simp] theorem smAdvance_params (p : SmIdx) (s : State) : (smAdvance p s).params = s.params := by
  cases p <;> rfl
@[simp] theorem smAdvance_mode (p : SmIdx) (s : State) : (smAdvance p s).mode = s.mode := by
  cases p <;> rfl
@[simp] theorem smAdvance_err (p : SmIdx) (s : State) : (smAdvance p s).err = s.err := by
  cases p <;> rfl
@[simp] theorem smAdvance_cursor (p : SmIdx) (s : State) : (smAdvance p s).cursor = s.cursor := by
  cases p <;> rfl
@[simp] theorem smAdvance_nch (p : SmIdx) (s : State) : (smAdvance p s).nch = s.nch := by
  cases p <;> rfl
@[simp] theorem smAdvance_fs (p : SmIdx) (s : State) : (smAdvance p s).fs = s.fs := by
  cases p <;> rfl
@[simp] theorem smAdvance_fadeStart (p : SmIdx) (s : State) : (smAdvance p s).fadeStart = s.fadeStart := by
  cases p <;> rfl
@[simp] theorem smAdvance_fadeEnd (p : SmIdx) (s : State) : (smAdvance p s).fadeEnd = s.fadeEnd := by
  cases p <;> rfl
@[simp] theorem smAdvance_fadeLen (p : SmIdx) (s : State) : (smAdvance p s).fadeLen = s.fadeLen := by
  cases p <;> rfl
@[simp] theorem smAdvance_silCnt (p : SmIdx) (s : State) : (smAdvance p s).silCnt = s.silCnt := by
  cases p <;> rfl
@[simp] theorem smAdvance_banks (p : SmIdx) (s : State) : (smAdvance p s).banks = s.banks := by
  cases p <;> rfl
@[simp] theorem smAdvance_pending (p : SmIdx) (s : State) : (smAdvance p s).pending = s.pending := by
  cases p <;> rfl
@[simp] theorem smAdvance_procLeft (p : SmIdx) (s : State) : (smAdvance p s).procLeft = s.procLeft := by
  cases p <;> rfl
@[simp] theorem smAdvance_input (p : SmIdx) (s : State) : (smAdvance p s).input = s.input := by
  cases p <;> rfl
@[simp] theorem smAdvance_output (p : SmIdx) (s : State) : (smAdvance p s).output = s.output := by
  cases p <;> rfl
@[simp] theorem smAdvance_por (p : SmIdx) (s : State) : (smAdvance p s).por = s.por := by
  cases p <;> rfl
@[simp] theorem smAdvance_gain_gain (s : State) : (smAdvance .gain s).gain = smNext s.gain := rfl
@[simp] theorem smAdvance_gain_dist (s : State) : (smAdvance .gain s).dist = s.dist := rfl
@[simp] theorem smAdvance_dist_gain (s : State) : (smAdvance .dist s).gain = s.gain := rfl
@[simp] theorem smAdvance_dist_dist (s : State) : (smAdvance .dist s).dist = smNext s.dist := rfl

/-! ### discardWord -/

@[simp] theorem discardWord_params (s : State) : s.discardWord.params = s.params := by
  unfold State.discardWord; split <;> rfl
@[simp] theorem discardWord_mode (s : State) : s.discardWord.mode = s.mode := by
  unfold State.discardWord; split <;> rfl
@[simp] theorem discardWord_err (s : State) : s.discardWord.err = s.err := by
  unfold State.discardWord; split <;> rfl
@[simp] theorem discardWord_nch (s : State) : s.discardWord.nch = s.nch := by
  unfold State.discardWord; split <;> rfl
@[simp] theorem discardWord_fs (s : State) : s.discardWord.fs = s.fs := by
  unfold State.discardWord; split <;> rfl
@[simp] theorem discardWord_fadeStart (s : State) : s.discardWord.fadeStart = s.fadeStart := by
  unfold State.discardWord; split <;> rfl
@[simp] theorem discardWord_fadeEnd (s : State) : s.discardWord.fadeEnd = s.fadeEnd := by
  unfold State.discardWord; split <;> rfl
@[simp] theorem discardWord_fadeLen (s : State) : s.discardWord.fadeLen = s.fadeLen := by
  unfold State.discardWord; split <;> rfl
@[simp] theorem discardWord_silCnt (s : State) : s.discardWord.silCnt = s.silCnt := by
  unfold State.discardWord; split <;> rfl
@[simp] theorem discardWord_gain (s : State) : s.discardWord.gain = s.gain := by
  unfold State.discardWord; split <;> rfl
@[simp] theorem discardWord_dist (s : State) : s.discardWord.dist = s.dist := by
  unfold State.discardWord; split <;> rfl
@[simp] theorem discardWord_banks (s : State) : s.discardWord.banks = s.banks := by
  unfold State.discardWord; split <;> rfl
@[simp] theorem discardWord_pending (s : State) : s.discardWord.pending = s.pending := by
  unfold State.discardWord; split <;> rfl
@[simp] theorem discardWord_procLeft (s : State) : s.discardWord.procLeft = s.procLeft := by
  unfold State.discardWord; split <;> rfl
@[simp] theorem discardWord_output (s : State) : s.discardWord.output = s.output := by
  unfold State.discardWord; split <;> rfl
@[simp] theorem discardWord_por (s : State) : s.discardWord.por = s.por := by
  unfold State.discardWord; split <;> rfl
@[simp] theorem discardWord_cursor (s : State) : s.discardWord.cursor = s.cursor + min 1 s.input.length := by
  unfold State.discardWord; split <;> simp_all
@[simp] theorem discardWord_input (s : State) : s.discardWord.input = s.input.drop 1 := by
  unfold State.discardWord; split <;> simp_all

/-! ### One frame -/

@[simp] theorem frameNext_params (s : State) (xs : List Word) : (frameNext s xs).params = s.params := by
  unfold frameNext frameBanks; split <;> rfl
@[simp] theorem frameNext_mode (s : State) (xs : List Word) : (frameNext s xs).mode = s.mode := by
  unfold frameNext frameBanks; split <;> rfl
@[simp] theorem frameNext_err (s : State) (xs : List Word) : (frameNext s xs).err = s.err := by
  unfold frameNext frameBanks; split <;> rfl
@[simp] theorem frameNext_cursor (s : State) (xs : List Word) : (frameNext s xs).cursor = s.cursor := by
  unfold frameNext frameBanks; split <;> rfl
@[simp] theorem frameNext_nch (s : State) (xs : List Word) : (frameNext s xs).nch = s.nch := by
  unfold frameNext frameBanks; split <;> rfl
@[simp] theorem frameNext_fs (s : State) (xs : List Word) : (frameNext s xs).fs = s.fs := by
  unfold frameNext frameBanks; split <;> rfl
@[simp] theorem frameNext_fadeStart (s : State) (xs : List Word) : (frameNext s xs).fadeStart = s.fadeStart := by
  unfold frameNext frameBanks; split <;> rfl
@[simp] theorem frameNext_fadeEnd (s : State) (xs : List Word) : (frameNext s xs).fadeEnd = s.fadeEnd := by
  unfold frameNext frameBanks; split <;> rfl
@[simp] theorem frameNext_fadeLen (s : State) (xs : List Word) : (frameNext s xs).fadeLen = s.fadeLen := by
  unfold frameNext frameBanks; split <;> rfl
@[simp] theorem frameNext_gain (s : State) (xs : List Word) : (frameNext s xs).gain = smNext s.gain := by
  unfold frameNext frameBanks; split <;> rfl
@[simp] theorem frameNext_dist (s : State) (xs : List Word) : (frameNext s xs).dist = smNext s.dist := by
  unfold frameNext frameBanks; split <;> rfl
@[simp] theorem frameNext_pending (s : State) (xs : List Word) : (frameNext s xs).pending = s.pending := by
  unfold frameNext frameBanks; split <;> rfl
@[simp] theorem frameNext_procLeft (s : State) (xs : List Word) : (frameNext s xs).procLeft = s.procLeft := by
  unfold frameNext frameBanks; split <;> rfl
@[simp] theorem frameNext_input (s : State) (xs : List Word) : (frameNext s xs).input = s.input := by
  unfold frameNext frameBanks; split <;> rfl
@[simp] theorem frameNext_output (s : State) (xs : List Word) : (frameNext s xs).output = s.output := by
  unfold frameNext frameBanks; split <;> rfl
@[simp] theorem frameNext_por (s : State) (xs : List Word) : (frameNext s xs).por = s.por := by
  unfold frameNext frameBanks; split <;> rfl
@[simp] theorem frameNext_silCnt (s : State) (xs : List Word) :
    (frameNext s xs).silCnt
      = if frameSilent xs then BitVec.ofNat 32 (min (s.silCnt.toNat + 1) s.fadeEnd.toNat) else 0#32 := by
  unfold frameNext frameBanks; split <;> rfl
@[simp] theorem frameNext_banks (s : State) (xs : List Word) :
    (frameNext s xs).banks = if frameEngaged s then s.banks.mapIdx (bankAfter s xs) else s.banks := by
  unfold frameNext frameBanks; split <;> rfl

end Sys2Proof.Machine
end

