-- ==== Sys2Proof/Laws/Ops.lean ====
section
/-! SUPPORT. What each shared operation can do, said once: the check of the mode, the register space, the loop of
PROC, one command, one step. Later proofs cite these and do not unfold the machine. -/

namespace Sys2Proof.Machine

/-! ### The check of the mode -/

theorem allowedIn_fault (op : Opcode) : allowedIn op .fault = false := by cases op <;> rfl

/-- Which command which mode allows (R69 step 3). -/
theorem allowedIn_cases (op : Opcode) (m : Mode) (h : allowedIn op m = true) :
    (op = .init ∧ m = .uninit) ∨ (op = .rdreg ∧ (m = .uninit ∨ m = .ready))
      ∨ ((op = .reset ∨ op = .cfg ∨ op = .proc) ∧ m = .ready) := by
  cases op <;> cases m <;> simp [allowedIn] at h ⊢

theorem withMode_of_allowed (op : Opcode) (s : State) (run : State → Host.Outcome State Fault Refusal)
    (h : allowedIn op s.mode = true) : withMode op s run = run s := by
  unfold withMode
  have hm : s.mode ≠ .fault := by
    intro hf; rw [hf, allowedIn_fault] at h; exact Bool.false_ne_true h
  rw [if_neg hm, if_pos h]

theorem withMode_of_not_allowed (op : Opcode) (s : State) (run : State → Host.Outcome State Fault Refusal)
    (hm : s.mode ≠ .fault) (h : allowedIn op s.mode = false) :
    withMode op s run = .next (s.raiseFault .state) := by
  unfold withMode
  rw [if_neg hm, if_neg (by rw [h]; exact Bool.false_ne_true)]

theorem withMode_of_fault (op : Opcode) (s : State) (run : State → Host.Outcome State Fault Refusal)
    (hm : s.mode = .fault) : withMode op s run = .next s := by
  unfold withMode; rw [if_pos hm]

/-! ### One command -/

/-- What a command that its mode allows does. -/
def commandEffect (i : Instr) (s : State) : State :=
  match i with
  | .init nch fs => if configRefused s.params.maxch nch fs then s.raiseFault .config else initEffects nch fs s
  | .reset => resetEffects s
  | .cfg p law target ramp => s.setSmoother p (smConfigure s.fs law target ramp (s.smoother p))
  | .proc n => procFrames n s
  | .rdreg a => match memRead s a with | some w => s.emit [w] | none => s.raiseFault .addr

/-- What a command does in each mode. -/
def commandResult (i : Instr) (s : State) : State :=
  if s.mode = .fault then s
  else if allowedIn i.opcode s.mode then commandEffect i s
  else s.raiseFault .state

theorem exec_of_allowed (i : Instr) (s : State) (h : allowedIn i.opcode s.mode = true) :
    exec i s = .next (commandEffect i s) := by
  cases i with
  | init nch fs => unfold exec execInit; exact withMode_of_allowed .init s _ h
  | reset => unfold exec execReset; exact withMode_of_allowed .reset s _ h
  | cfg p law target ramp => unfold exec execCfg; exact withMode_of_allowed .cfg s _ h
  | proc n => unfold exec execProc; exact withMode_of_allowed .proc s _ h
  | rdreg a =>
    unfold exec execRdreg
    refine (withMode_of_allowed .rdreg s _ h).trans ?_
    unfold commandEffect
    dsimp only
    cases memRead s a <;> rfl

theorem exec_of_not_allowed (i : Instr) (s : State) (hm : s.mode ≠ .fault)
    (h : allowedIn i.opcode s.mode = false) : exec i s = .next (s.raiseFault .state) := by
  cases i with
  | init nch fs => unfold exec execInit; exact withMode_of_not_allowed .init s _ hm h
  | reset => unfold exec execReset; exact withMode_of_not_allowed .reset s _ hm h
  | cfg p law target ramp => unfold exec execCfg; exact withMode_of_not_allowed .cfg s _ hm h
  | proc n => unfold exec execProc; exact withMode_of_not_allowed .proc s _ hm h
  | rdreg a => unfold exec execRdreg; exact withMode_of_not_allowed .rdreg s _ hm h

theorem exec_of_fault (i : Instr) (s : State) (hm : s.mode = .fault) : exec i s = .next s := by
  cases i with
  | init nch fs => unfold exec execInit; exact withMode_of_fault .init s _ hm
  | reset => unfold exec execReset; exact withMode_of_fault .reset s _ hm
  | cfg p law target ramp => unfold exec execCfg; exact withMode_of_fault .cfg s _ hm
  | proc n => unfold exec execProc; exact withMode_of_fault .proc s _ hm
  | rdreg a => unfold exec execRdreg; exact withMode_of_fault .rdreg s _ hm

/-- Every command ends in a next state, and in which. -/
theorem exec_eq (i : Instr) (s : State) : exec i s = .next (commandResult i s) := by
  unfold commandResult
  split
  · next hm => exact exec_of_fault i s hm
  · next hm =>
    split
    · next h => exact exec_of_allowed i s h
    · next h => exact exec_of_not_allowed i s hm (by simpa using h)

/-! ### The loop of PROC -/

theorem procFrames_zero (s : State) : procFrames 0 s = { s with procLeft := 0 } := rfl

theorem procFrames_ready (k : Nat) (s : State) (h : s.nch.toNat ≤ (s.pending ++ s.input).length) :
    procFrames (k + 1) s = procFrames k (procFrame s) := by
  rw [procFrames]; exact if_pos h

theorem procFrames_starved (k : Nat) (s : State) (h : (s.pending ++ s.input).length < s.nch.toNat) :
    procFrames (k + 1) s = { s.awaitWords with procLeft := k + 1 } := by
  rw [procFrames]; exact if_neg (Nat.not_le.2 h)

/-- What holds of a state, and is kept by a whole frame, by waiting and by the count of frames left, holds after the
loop. -/
theorem procFrames_keeps (P : State → Prop) (hf : ∀ s, s.nch.toNat ≤ (s.pending ++ s.input).length → P s → P (procFrame s))
    (hw : ∀ s, (s.pending ++ s.input).length < s.nch.toNat → P s → P s.awaitWords)
    (hl : ∀ s k, P s → P { s with procLeft := k }) (n : Nat) (s : State) (h : P s) : P (procFrames n s) := by
  induction n generalizing s with
  | zero => exact hl s 0 h
  | succ k ih =>
    rcases Nat.lt_or_ge (s.pending ++ s.input).length s.nch.toNat with hlt | hge
    · rw [procFrames_starved k s hlt]; exact hl _ _ (hw s hlt h)
    · rw [procFrames_ready k s hge]; exact ih _ (hf s hge h)

/-- One frame of a PROC, field by field. -/
theorem procFrame_eq (s : State) :
    procFrame s
      = { frameNext s ((s.pending ++ s.input).take s.nch.toNat) with
          cursor := s.cursor + (s.nch.toNat - s.pending.length)
          input := s.input.drop (s.nch.toNat - s.pending.length)
          pending := []
          output := s.output ++ frameOut s ((s.pending ++ s.input).take s.nch.toNat) } := by
  unfold procFrame frameNext frameBanks
  rw [show frameEngaged (s.takeWords s.nch.toNat) = frameEngaged s from rfl]
  split <;> rfl

theorem procFrames_mode (n : Nat) (s : State) : (procFrames n s).mode = s.mode := by
  refine procFrames_keeps (fun t => t.mode = s.mode) ?_ ?_ ?_ n s rfl
  · intro t _ h; rw [procFrame_eq]; simpa using h
  · intro t _ h; simpa using h
  · intro t k h; exact h

theorem procFrames_err (n : Nat) (s : State) : (procFrames n s).err = s.err := by
  refine procFrames_keeps (fun t => t.err = s.err) ?_ ?_ ?_ n s rfl
  · intro t _ h; rw [procFrame_eq]; simpa using h
  · intro t _ h; simpa using h
  · intro t k h; exact h

theorem procFrames_params (n : Nat) (s : State) : (procFrames n s).params = s.params := by
  refine procFrames_keeps (fun t => t.params = s.params) ?_ ?_ ?_ n s rfl
  · intro t _ h; rw [procFrame_eq]; simpa using h
  · intro t _ h; simpa using h
  · intro t k h; exact h

/-! ### One step -/

/-- What stands at the front of the stream, when it does not start a command, ends in a next state; a command ends in
one by `exec_eq`. -/
def fetchedResult (f : Fetched) : State :=
  match f with
  | .settled t => t
  | .run i t => commandResult i t

theorem commandStep_eq (s : State) : commandStep s = .next (fetchedResult (fetch s)) := by
  unfold commandStep fetchedResult
  cases fetch s with
  | settled t => rfl
  | run i t => exact exec_eq i t

theorem step_of_por_none (s : State) (h : s.por = none) : step s = .next (fetchedResult (fetch s)) := by
  unfold step; rw [h]; exact commandStep_eq s

theorem step_of_por_some (s : State) (k : Nat) (h : s.por = some k) :
    step s = .next (powerOnAfter s k (commandStep s)) := by
  unfold step; rw [h]

theorem fetch_of_fault (s : State) (h : s.mode = .fault) : fetch s = .settled s.discardWord := by
  unfold fetch; rw [if_pos h]

theorem fetch_of_progress (s : State) (hm : s.mode ≠ .fault) (h : s.procLeft ≠ 0) :
    fetch s = .settled (procFrames s.procLeft s) := by
  unfold fetch; rw [if_neg hm, if_neg h]

theorem fetch_of_command (s : State) (hm : s.mode ≠ .fault) (h : s.procLeft = 0) : fetch s = fetchCommand s := by
  unfold fetch; rw [if_neg hm, if_pos h]

/-- Everything the front of a command can come to: no word; a header that faults at decode or in this mode; operand
words missing; a command. -/
theorem fetchCommand_cases (s : State) :
    (s.pending ++ s.input = [] ∧ fetchCommand s = .settled s)
    ∨ (∃ h ops, s.pending ++ s.input = h :: ops
        ∧ ((∃ e, decodeHeader h = .error e ∧ fetchCommand s = .settled ((s.takeWords 1).raiseFault .illegal))
          ∨ ∃ op, decodeHeader h = .ok op
            ∧ ((allowedIn op s.mode = false ∧ fetchCommand s = .settled ((s.takeWords 1).raiseFault .state))
              ∨ (allowedIn op s.mode = true ∧ withOperands op h ops = none ∧ fetchCommand s = .settled s.awaitWords)
              ∨ (allowedIn op s.mode = true
                  ∧ ∃ i rest, withOperands op h ops = some (i, rest)
                    ∧ fetchCommand s = .run i (s.takeWords (decodedLength i)))))) := by
  unfold fetchCommand
  split
  · next h => exact Or.inl ⟨h, rfl⟩
  · next h ops heq =>
    refine Or.inr ⟨h, ops, heq, ?_⟩
    unfold fetchHeader
    cases hd : decodeHeader h with
    | error e => exact Or.inl ⟨e, rfl, rfl⟩
    | ok op =>
      refine Or.inr ⟨op, rfl, ?_⟩
      dsimp only
      cases ha : allowedIn op s.mode with
      | false => exact Or.inl ⟨rfl, rfl⟩
      | true =>
        rw [if_pos rfl]
        unfold fetchOperands
        cases hw : withOperands op h ops with
        | none => exact Or.inr (Or.inl ⟨rfl, rfl, rfl⟩)
        | some r => exact Or.inr (Or.inr ⟨rfl, r.1, r.2, rfl, rfl⟩)

/-- The opcode of a decoded command is that of its header. -/
theorem withOperands_opcode (op : Opcode) (h : Word) (ops : List Word) (i : Instr) (rest : List Word)
    (hw : withOperands op h ops = some (i, rest)) : i.opcode = op := by
  cases op <;> rcases ops with _ | ⟨a, _ | ⟨b, ops⟩⟩ <;> simp_all [withOperands] <;>
    (obtain ⟨h1, -⟩ := hw; subst h1; rfl)

/-- The words of a decoded command are there: its header, its operand words and what follows. -/
theorem withOperands_length (op : Opcode) (h : Word) (ops : List Word) (i : Instr) (rest : List Word)
    (hw : withOperands op h ops = some (i, rest)) :
    decodedLength i = 1 + (ops.length - rest.length) ∧ rest.length ≤ ops.length
      ∧ rest = (h :: ops).drop (decodedLength i) := by
  cases op <;> rcases ops with _ | ⟨a, _ | ⟨b, ops⟩⟩ <;> simp_all [withOperands] <;>
    (obtain ⟨h1, h2⟩ := hw; subst h1; subst h2; simp [decodedLength]; try omega)

/-- While operand words are missing at most the header and one operand are there (R68). -/
theorem withOperands_none (op : Opcode) (h : Word) (ops : List Word) (hw : withOperands op h ops = none) :
    ops.length ≤ 1 ∧ (op = .init ∨ op = .cfg) := by
  cases op <;> rcases ops with _ | ⟨a, _ | ⟨b, ops⟩⟩ <;> simp_all [withOperands]

/-- Every decoded command is well formed: its field `N` has 16 bits. -/
theorem withOperands_wellFormed (op : Opcode) (h : Word) (ops : List Word) (i : Instr) (rest : List Word)
    (hw : withOperands op h ops = some (i, rest)) : i.wellFormed = true := by
  have hb : bits h 15 0 < 2 ^ 16 := Nat.mod_lt _ (by decide)
  cases op <;> rcases ops with _ | ⟨a, _ | ⟨b, ops⟩⟩ <;> simp [withOperands] at hw <;>
    (obtain ⟨h1, -⟩ := hw; subst h1; simp [Instr.wellFormed] <;> exact hb)

/-- A property that each of the five things a step can do keeps is kept by every step without a power-on reset:
discarding a word, going on with a PROC, a fault at the header, waiting for operands, a command. -/
theorem step_keeps (P : State → Prop)
    (hdisc : ∀ s, s.mode = .fault → P s → P s.discardWord)
    (hproc : ∀ s, s.mode ≠ .fault → s.procLeft ≠ 0 → P s → P (procFrames s.procLeft s))
    (hfault : ∀ s c, s.procLeft = 0 → s.mode ≠ .fault → c ≠ .none → s.pending ++ s.input ≠ [] → P s →
      P ((s.takeWords 1).raiseFault c))
    (hwait : ∀ s, s.procLeft = 0 → s.mode ≠ .fault → (s.pending ++ s.input).length ≤ 2 → P s → P s.awaitWords)
    (hrun : ∀ s i, s.procLeft = 0 → allowedIn i.opcode s.mode = true →
      decodedLength i ≤ (s.pending ++ s.input).length → P s → P (commandEffect i (s.takeWords (decodedLength i))))
    (s t : State) (hp : s.por = none) (h : step s = .next t) (hs : P s) : P t := by
  rw [step_of_por_none s hp] at h
  injection h with h
  subst h
  by_cases hm : s.mode = .fault
  · rw [fetch_of_fault s hm]; exact hdisc s hm hs
  by_cases hl : s.procLeft = 0
  · rw [fetch_of_command s hm hl]
    rcases fetchCommand_cases s with ⟨_, e⟩
      | ⟨hw, ops, heq, ⟨er, _, e⟩ | ⟨op, _, ⟨_, e⟩ | ⟨_, hnone, e⟩ | ⟨ha, i, rest, hsome, e⟩⟩⟩
    · rw [e]; exact hs
    · rw [e]; exact hfault s _ hl hm (by simp) (by rw [heq]; simp) hs
    · rw [e]; exact hfault s _ hl hm (by simp) (by rw [heq]; simp) hs
    · rw [e]
      refine hwait s hl hm ?_ hs
      rw [heq]
      have := (withOperands_none _ _ _ hnone).1
      simp only [List.length_cons]; omega
    · rw [e]
      have ho := withOperands_opcode _ _ _ _ _ hsome
      have hlen := withOperands_length _ _ _ _ _ hsome
      have ha' : allowedIn i.opcode s.mode = true := by rw [ho]; exact ha
      show P (commandResult i (s.takeWords (decodedLength i)))
      unfold commandResult
      rw [if_neg (by simpa using hm), if_pos (by simpa using ha')]
      refine hrun s i hl ha' ?_ hs
      rw [heq]; simp only [List.length_cons]; omega
  · rw [fetch_of_progress s hm hl]; exact hproc s hm hl hs

/-! ### Several steps -/

theorem host_run_succ (M : Host.Core) (n : Nat) (s t : M.State) (h : M.step s = .next t) :
    M.run (n + 1) s = M.run n t := by
  rw [Host.Core.run, h]

/-- A run of one step more: the step, then the run. -/
theorem core_run_succ (n : Nat) (s t : State) (h : step s = .next t) :
    Sys2Proof.core.run (n + 1) s = Sys2Proof.core.run n t :=
  host_run_succ Sys2Proof.core n s t h

end Sys2Proof.Machine
end

