-- ==== Sys2Proof/Laws/Frames.lean ====
section
/-! SUPPORT. What one frame does to the state and answers, said once, and the cascades that a session does not use. -/

namespace Sys2Proof.Machine

/-! ### The output of a frame -/

theorem frameOut_length (s : State) (xs : List Word) : (frameOut s xs).length = xs.length := by
  unfold frameOut sfGain frameFiltered filterFrame; split <;> simp

/-- The output of one channel: its sample, through its cascade if the frame is engaged, shaped, faded. -/
theorem frameOut_getElem? (s : State) (xs : List Word) (c : Nat) :
    (frameOut s xs)[c]?
      = (xs[c]?).map fun x =>
          fadeSample s (wsShape (frameGain s) (if frameEngaged s then fbOut (s.bankCoef c) (s.bank c) x else x)) := by
  unfold frameOut sfGain frameFiltered filterFrame
  rw [List.getElem?_map, List.getElem?_map]
  split
  · rw [List.getElem?_mapIdx]; cases xs[c]? <;> rfl
  · cases xs[c]? <;> rfl

theorem frameOut_of_muted (s : State) (xs : List Word) (h : s.phase = .muted) :
    frameOut s xs = List.replicate xs.length 0#32 := by
  apply List.ext_getElem?
  intro c
  rw [frameOut_getElem?, List.getElem?_replicate]
  have hf : ∀ y, fadeSample s y = 0#32 := by intro y; unfold fadeSample; rw [h]
  simp only [hf]
  split
  · next hc => rw [List.getElem?_eq_getElem hc]; rfl
  · next hc => rw [List.getElem?_eq_none (by omega)]; rfl

theorem frameOut_of_active (s : State) (xs : List Word) (h : s.phase = .active) :
    frameOut s xs = (frameFiltered s xs).map (wsShape (frameGain s)) := by
  unfold frameOut sfGain
  have hf : fadeSample s = id := by funext y; unfold fadeSample; rw [h]; rfl
  rw [hf, List.map_id]

/-! ### The state after a frame -/

/-- A frame writes the smoothers, the cascades and the silence counter, and nothing else. -/
theorem frameNext_eq (s : State) (xs : List Word) :
    frameNext s xs
      = { s with
          gain := smNext s.gain
          dist := smNext s.dist
          silCnt := (frameNext s xs).silCnt
          banks := (frameNext s xs).banks } := by
  refine State.ext_fields _ _ ?_ ?_ ?_ ?_ ?_ ?_ ?_ ?_ ?_ ?_ ?_ ?_ ?_ ?_ ?_ ?_ ?_ ?_ <;>
    simp only [frameNext_params, frameNext_mode, frameNext_err, frameNext_cursor, frameNext_nch, frameNext_fs,
      frameNext_fadeStart, frameNext_fadeEnd, frameNext_fadeLen, frameNext_gain, frameNext_dist,
      frameNext_pending, frameNext_procLeft, frameNext_input, frameNext_output, frameNext_por]

theorem frameNext_silCnt_of_silent (s : State) (xs : List Word) (h : frameSilent xs = true) :
    (frameNext s xs).silCnt.toNat = min (s.silCnt.toNat + 1) s.fadeEnd.toNat := by
  rw [frameNext_silCnt, if_pos h, BitVec.toNat_ofNat, Nat.mod_eq_of_lt]
  have := s.fadeEnd.isLt
  omega

theorem frameNext_silCnt_of_not_silent (s : State) (xs : List Word) (h : frameSilent xs = false) :
    (frameNext s xs).silCnt = 0#32 := by
  rw [frameNext_silCnt, if_neg (by rw [h]; exact Bool.false_ne_true)]

/-! ### Several frames -/

theorem framesAfter_cons (s : State) (xs : List Word) (rest : List (List Word)) :
    framesAfter s (xs :: rest) = framesAfter (frameNext s xs) rest := rfl

theorem framesOut_cons (s : State) (xs : List Word) (rest : List (List Word)) :
    framesOut s (xs :: rest) = frameOut s xs ++ framesOut (frameNext s xs) rest := rfl

theorem framesAfter_append (first second : List (List Word)) (s : State) :
    framesAfter s (first ++ second) = framesAfter (framesAfter s first) second := by
  induction first generalizing s with
  | nil => rfl
  | cons xs rest ih => exact ih (frameNext s xs)

theorem framesOut_append (first second : List (List Word)) (s : State) :
    framesOut s (first ++ second) = framesOut s first ++ framesOut (framesAfter s first) second := by
  induction first generalizing s with
  | nil => rfl
  | cons xs rest ih =>
    rw [List.cons_append, framesOut_cons, framesOut_cons, ih (frameNext s xs), framesAfter_cons, List.append_assoc]

/-- What one frame keeps, any number of frames keep. -/
theorem framesAfter_keeps (P : State → Prop) (hf : ∀ s xs, P s → P (frameNext s xs)) (frames : List (List Word))
    (s : State) (h : P s) : P (framesAfter s frames) := by
  induction frames generalizing s with
  | nil => exact h
  | cons xs rest ih => exact ih (frameNext s xs) (hf s xs h)

/-! ### The streams play no part in a frame -/

theorem frameOut_streams (s : State) (xs : List Word) (c : Nat) (i p : List Word) (l : Nat) (o : List Word) :
    frameOut { s with cursor := c, input := i, pending := p, procLeft := l, output := o } xs = frameOut s xs := rfl

theorem frameNext_streams (s : State) (xs : List Word) (c : Nat) (i p : List Word) (l : Nat) (o : List Word) :
    frameNext { s with cursor := c, input := i, pending := p, procLeft := l, output := o } xs
      = { frameNext s xs with cursor := c, input := i, pending := p, procLeft := l, output := o } := by
  have he : frameEngaged { s with cursor := c, input := i, pending := p, procLeft := l, output := o }
    = frameEngaged s := rfl
  have hb : bankAfter { s with cursor := c, input := i, pending := p, procLeft := l, output := o } xs
    = bankAfter s xs := rfl
  refine State.ext_fields _ _ ?_ ?_ ?_ ?_ ?_ ?_ ?_ ?_ ?_ ?_ ?_ ?_ ?_ ?_ ?_ ?_ ?_ ?_ <;>
    simp only [frameNext_params, frameNext_mode, frameNext_err, frameNext_cursor, frameNext_nch, frameNext_fs,
      frameNext_fadeStart, frameNext_fadeEnd, frameNext_fadeLen, frameNext_gain, frameNext_dist, frameNext_silCnt,
      frameNext_banks, frameNext_pending, frameNext_procLeft, frameNext_input, frameNext_output, frameNext_por,
      he, hb]

theorem framesAfter_streams (frames : List (List Word)) (s : State) (c : Nat) (i p : List Word) (l : Nat)
    (o : List Word) :
    framesAfter { s with cursor := c, input := i, pending := p, procLeft := l, output := o } frames
      = { framesAfter s frames with cursor := c, input := i, pending := p, procLeft := l, output := o } := by
  induction frames generalizing s with
  | nil => rfl
  | cons xs rest ih => rw [framesAfter_cons, framesAfter_cons, frameNext_streams]; exact ih (frameNext s xs)

theorem framesOut_streams (frames : List (List Word)) (s : State) (c : Nat) (i p : List Word) (l : Nat)
    (o : List Word) :
    framesOut { s with cursor := c, input := i, pending := p, procLeft := l, output := o } frames
      = framesOut s frames := by
  induction frames generalizing s with
  | nil => rfl
  | cons xs rest ih =>
    rw [framesOut_cons, framesOut_cons, frameNext_streams, frameOut_streams, ih (frameNext s xs)]

/-- The loop of PROC does not read the count of frames left. -/
theorem procFrames_procLeft (n : Nat) (s : State) (l : Nat) :
    procFrames n { s with procLeft := l } = procFrames n s := by
  induction n generalizing s with
  | zero => rfl
  | succ k ih =>
    rcases Nat.lt_or_ge (s.pending ++ s.input).length s.nch.toNat with hlt | hge
    · rw [procFrames_starved k s hlt, procFrames_starved k _ (by exact hlt)]; rfl
    · rw [procFrames_ready k s hge, procFrames_ready k _ (by exact hge)]
      have hf : procFrame { s with procLeft := l } = { procFrame s with procLeft := l } := by
        rw [procFrame_eq, procFrame_eq s]
        have h := frameNext_streams s ((s.pending ++ s.input).take s.nch.toNat) s.cursor s.input s.pending l s.output
        rw [h]
        rfl
      rw [hf]
      exact ih (procFrame s)

/-! ### Cascades of the channels not in use -/

theorem banksZeroFrom_iff (n : Nat) (bs : List Bank) :
    banksZeroFrom n bs = true ↔ ∀ c b, n ≤ c → bs[c]? = some b → b = Bank.zero := by
  unfold banksZeroFrom
  rw [List.all_eq_true]
  constructor
  · intro h c b hc hb
    have hmem : b ∈ bs.drop n := by
      rw [List.mem_iff_getElem?]
      exact ⟨c - n, by rw [List.getElem?_drop, show n + (c - n) = c by omega]; exact hb⟩
    simpa using h b hmem
  · intro h b hb
    rw [List.mem_iff_getElem?] at hb
    obtain ⟨k, hk⟩ := hb
    rw [List.getElem?_drop] at hk
    simpa using h (n + k) b (by omega) hk

theorem banksZeroFrom_replicate (n m : Nat) : banksZeroFrom n (List.replicate m Bank.zero) = true := by
  simp [banksZeroFrom, List.drop_replicate]

theorem banksZeroFrom_mapIdx (n : Nat) (bs : List Bank) (f : Nat → Bank → Bank) (h : banksZeroFrom n bs = true)
    (hf : ∀ c, n ≤ c → f c Bank.zero = Bank.zero) : banksZeroFrom n (bs.mapIdx f) = true := by
  rw [banksZeroFrom_iff] at *
  intro c b hc hb
  rw [List.getElem?_mapIdx] at hb
  cases hx : bs[c]? with
  | none => rw [hx] at hb; cases hb
  | some b' =>
    rw [hx] at hb
    simp only [Option.map_some, Option.some.injEq] at hb
    rw [h c b' hc hx, hf c hc] at hb
    exact hb.symm

end Sys2Proof.Machine
end

