-- ==== Sys2Proof/Laws/PerInstr.lean ====
section
/-! SUPPORT. For each command: the header the encoder writes is the one the opcode table gives the command's row
(R62 to R66): under the row's mask it is the row's match value. -/

namespace Sys2Proof.Laws

/-- The mask of a command's row of the opcode table (R62 to R66). -/
def rowMask (op : Opcode) : Word :=
  match op with
  | .init => 0xFFFF0000#32
  | .reset => 0xFFFFFFFF#32
  | .cfg => 0xFFFCFFFF#32
  | .proc => 0xFFFF0000#32
  | .rdreg => 0xFFFF0000#32

/-- The match value of a command's row of the opcode table (R62 to R66). -/
def rowMatch (op : Opcode) : Word :=
  match op with
  | .init => 0x01000000#32
  | .reset => 0x02000000#32
  | .cfg => 0x03000000#32
  | .proc => 0x04000000#32
  | .rdreg => 0x05000000#32

theorem and_highMask (w : Word) : w &&& 0xFFFF0000#32 = (w >>> 16) <<< 16 := by
  apply BitVec.eq_of_getLsbD_eq
  intro i hi
  rw [BitVec.getLsbD_and, BitVec.getLsbD_shiftLeft, BitVec.getLsbD_ushiftRight]
  interval_cases i <;> simp

/-- The upper half of a word, as the mask 0xFFFF0000 leaves it. -/
theorem toNat_and_highMask (w : Word) : (w &&& 0xFFFF0000#32).toNat = w.toNat / 2 ^ 16 * 2 ^ 16 := by
  have := w.isLt
  rw [and_highMask, BitVec.toNat_shiftLeft, BitVec.toNat_ushiftRight, Nat.shiftLeft_eq,
    Nat.shiftRight_eq_div_pow]
  omega

/-- A header without flags keeps its opcode and a zero `ARG` under the mask 0xFFFF0000. -/
theorem headerWord_and_highMask (opc n : Nat) (ho : opc < 2 ^ 8) (hn : n < 2 ^ 16) :
    (headerWord opc 0 n &&& 0xFFFF0000#32).toNat = opc * 2 ^ 24 := by
  rw [toNat_and_highMask]
  unfold headerWord
  rw [BitVec.toNat_ofNat]
  omega

theorem cfgHeader_and_mask (p : SmIdx) (law : Law) :
    headerWord 3 (2 * lawBit law + smIdxBit p) 0 &&& rowMask .cfg = rowMatch .cfg := by
  cases p <;> cases law <;> decide

/-- Under the mask of its row the header of a well-formed command is the match value of its row. -/
def TableRow.Statement (i : Instr) : Prop :=
  i.wellFormed = true → ∃ h ops, encode i = h :: ops ∧ h &&& rowMask i.opcode = rowMatch i.opcode

theorem TableRow.init (nch : Nat) (fs : Word) : TableRow.Statement (.init nch fs) := fun hw =>
  ⟨_, _, rfl, BitVec.eq_of_toNat_eq (headerWord_and_highMask 1 nch (by decide) (of_decide_eq_true hw))⟩

theorem TableRow.reset : TableRow.Statement .reset := fun _ => ⟨_, _, rfl, by decide⟩

theorem TableRow.cfg (p : SmIdx) (law : Law) (target rampMs : Word) :
    TableRow.Statement (.cfg p law target rampMs) := fun _ =>
  ⟨_, _, rfl, cfgHeader_and_mask p law⟩

theorem TableRow.proc (n : Nat) : TableRow.Statement (.proc n) := fun hw =>
  ⟨_, _, rfl, BitVec.eq_of_toNat_eq (headerWord_and_highMask 4 n (by decide) (of_decide_eq_true hw))⟩

theorem TableRow.rdreg (addr : Nat) : TableRow.Statement (.rdreg addr) := fun hw =>
  ⟨_, _, rfl, BitVec.eq_of_toNat_eq (headerWord_and_highMask 5 addr (by decide) (of_decide_eq_true hw))⟩

end Sys2Proof.Laws
end

