-- ==== Sys2Proof/Machine/Assembler.lean ====
section
/-! DEFINITION. The textual form of a command stream (30_encoding.md section 6, R71): one command to a line, `;`
starts a comment, and the four pseudo-commands. The text is a list of characters, so that it can be
evaluated. No part of the machine depends on it. -/

namespace Sys2Proof.Machine

/-- The pieces between the characters that separate. -/
def splitChars (sep : Char → Bool) (text : List Char) : List (List Char) :=
  match text with
  | [] => [[]]
  | c :: rest =>
    if sep c then [] :: splitChars sep rest
    else
      match splitChars sep rest with
      | [] => [[c]]
      | piece :: pieces => (c :: piece) :: pieces

/-- The tokens of a line: the comment goes; blanks and commas separate (R71; log entry 14). -/
def lineTokens (line : List Char) : List (List Char) :=
  (splitChars (fun c => c == ' ' || c == '\t' || c == ',') (line.takeWhile fun c => c != ';')).filter
    fun t => !t.isEmpty

/-- The value of a hexadecimal digit. -/
def digitValue (c : Char) : Option Nat :=
  if '0' ≤ c ∧ c ≤ '9' then some (c.toNat - 48)
  else if 'A' ≤ c ∧ c ≤ 'F' then some (c.toNat - 55)
  else if 'a' ≤ c ∧ c ≤ 'f' then some (c.toNat - 87)
  else none

/-- The digits of a number in a base, added to a value read so far. -/
def readDigits (base acc : Nat) (ds : List Char) : Option Nat :=
  match ds with
  | [] => some acc
  | c :: rest =>
    match digitValue c with
    | some d => if d < base then readDigits base (acc * base + d) rest else none
    | none => none

/-- The digits of a number, at least one. -/
def numeral (base : Nat) (ds : List Char) : Option Nat :=
  if ds.isEmpty then none else readDigits base 0 ds

/-- An integer: decimal, or `0x` hexadecimal (R71). -/
def intToken (t : List Char) : Option Nat :=
  match t with
  | '0' :: 'x' :: ds => numeral 16 ds
  | ds => numeral 10 ds

/-- The nearest binary32 of the decimal `digits` with `places` of them after the point (R71). -/
def decimalWord (sign : Bool) (digits places : Nat) : Word :=
  packFloat sign (roundMag (digits * 2 ^ 149) (10 ^ places))

/-- A decimal real without its sign: digits, or digits, a point and digits (R71). -/
def decimalToken (sign : Bool) (t : List Char) : Option Word :=
  match splitChars (fun c => c == '.') t with
  | [whole] => (numeral 10 whole).map fun n => decimalWord sign n 0
  | [whole, frac] =>
    if frac.isEmpty then none
    else (numeral 10 (whole ++ frac)).map fun n => decimalWord sign n frac.length
  | _ => none

/-- A real: a decimal, or `0x` and eight hexadecimal digits for an exact bit pattern (R71). -/
def realToken (t : List Char) : Option Word :=
  match t with
  | '0' :: 'x' :: ds => if ds.length = 8 then (numeral 16 ds).map (BitVec.ofNat 32) else none
  | '-' :: ds => decimalToken true ds
  | ds => decimalToken false ds

/-- `GAIN` or `DIST` (R71). -/
def smIdxToken (t : List Char) : Option SmIdx :=
  if t = "GAIN".toList then some .gain
  else if t = "DIST".toList then some .dist
  else none

/-- `LIN` or `LOG` (R71). -/
def lawToken (t : List Char) : Option Law :=
  if t = "LIN".toList then some .lin
  else if t = "LOG".toList then some .log
  else none

/-- Each element through a partial function; `none` if one has no value. -/
def allSome (f : List Char → Option Word) (ts : List (List Char)) : Option (List Word) :=
  match ts with
  | [] => some []
  | t :: rest =>
    match f t, allSome f rest with
    | some w, some ws => some (w :: ws)
    | _, _ => none

/-- The words of a command that fits its header. -/
def wordsOf (i : Instr) : Option (List Word) := if i.wellFormed then some (encode i) else none

/-- The address of `SM_CUR[p]`, which `PEEK p` reads (R71, R49). -/
def peekAddr (p : SmIdx) : Nat := 0x10 + 8 * smIdxBit p

/-- The words of one line: a command, a pseudo-command, or a line of samples (R71). -/
def asmTokens (ts : List (List Char)) : Option (List Word) :=
  match ts with
  | [] => some []
  | kw :: args =>
    if kw = "INIT".toList then
      match args with
      | [fs, nch] => (realToken fs).bind fun f => (intToken nch).bind fun n => wordsOf (.init n f)
      | _ => none
    else if kw = "RESET".toList then
      if args.isEmpty then wordsOf .reset else none
    else if kw = "CFG".toList then
      match args with
      | [p, law, target, ramp] =>
        (smIdxToken p).bind fun p => (lawToken law).bind fun l =>
          (realToken target).bind fun t => (realToken ramp).bind fun r => wordsOf (.cfg p l t r)
      | _ => none
    else if kw = "PROC".toList then
      match args with
      | [n] => (intToken n).bind fun n => wordsOf (.proc n)
      | _ => none
    else if kw = "RDREG".toList then
      match args with
      | [a] => (intToken a).bind fun a => wordsOf (.rdreg a)
      | _ => none
    else if kw = "FRAME".toList then
      (allSome realToken args).map fun xs => encodeBlock [xs]
    else if kw = "NOPBLOCK".toList then
      if args.isEmpty then wordsOf (.proc 0) else none
    else if kw = "PEEK".toList then
      match args with
      | [p] => (smIdxToken p).bind fun p => wordsOf (.rdreg (peekAddr p))
      | _ => none
    else if kw = "STATUS".toList then
      if args.isEmpty then wordsOf (.rdreg 0) else none
    else allSome realToken (kw :: args)

/-- The words of some lines, in order. -/
def asmLines (lines : List (List Char)) : Option (List Word) :=
  match lines with
  | [] => some []
  | line :: rest =>
    match asmTokens (lineTokens line), asmLines rest with
    | some ws, some ws' => some (ws ++ ws')
    | _, _ => none

/-- The command stream that a text stands for (R71); `none` where a line has no reading. -/
def assemble (text : List Char) : Option (List Word) := asmLines (splitChars (fun c => c == '\n') text)

end Sys2Proof.Machine
end

