-- ==== Sys2Proof/Tests/Slice0.lean ====
section
/-! SUPPORT. Checks of the model against words and values of the spec (95_test_vectors.md and the examples of the
rules), and for each statement with hypotheses a concrete case that meets them. -/

open Sys2Proof Sys2Proof.Machine

namespace Sys2Proof.Tests

/-! ### The states the tests start from -/

/-- TESTCOEF of 95_test_vectors.md: 0.5, 0.0, -0.5, -0.25, 0.5. -/
def testCoef : Coef :=
  { b0 := 0x3F000000#32, b1 := 0x00000000#32, b2 := 0xBF000000#32, a1 := 0xBE800000#32, a2 := 0x3F000000#32 }

def testBankCoef : BankCoef := { k0 := testCoef, k1 := testCoef, k2 := testCoef, k3 := testCoef }

/-- An instance with `MAXCH = 2`, TESTCOEF and the defaults of R9 and R10. -/
def testParams : Params :=
  { maxch := 2, coef := [testBankCoef, testBankCoef], fadeStartMs := 0x447A0000#32, fadeEndMs := 0x44FA0000#32
    gDefault := 0x3F800000#32, dDefault := 0x00000000#32 }

/-- Power-on state, with some words offered. -/
def fresh (ws : List Word) : State := { State.powerOn testParams with input := ws }

/-- What `INIT 4.0, 1` leaves (program P1): thresholds 4 / 8 / 4, muted. -/
def ready (ws : List Word) : State :=
  { fresh ws with
    mode := .ready, nch := 1#32, fs := 0x40800000#32, fadeStart := 4#32, fadeEnd := 8#32, fadeLen := 4#32
    silCnt := 8#32 }

/-- The same after one frame that was not silent (T-PL-1). -/
def active (ws : List Word) : State := { ready ws with silCnt := 0#32 }

/-- The next state, where there is one. -/
def after (r : Host.Outcome State Fault Refusal) : Option State :=
  match r with
  | .next t => some t
  | .fault _ => none
  | .refused _ => none

/-! ### WellFormed: each check refuses its ill-formed term -/

theorem test_wellFormed_refuses_init : (Instr.init 65536 0x473B8000#32).wellFormed = false := by decide
theorem test_wellFormed_refuses_proc : (Instr.proc 65536).wellFormed = false := by decide
theorem test_wellFormed_refuses_rdreg : (Instr.rdreg 65536).wellFormed = false := by decide
theorem test_wellFormed_accepts_largest :
    (Instr.init 65535 0x473B8000#32).wellFormed = true ∧ (Instr.proc 65535).wellFormed = true
      ∧ (Instr.rdreg 65535).wellFormed = true ∧ Instr.reset.wellFormed = true
      ∧ (Instr.cfg .gain .lin 0#32 0#32).wellFormed = true := by decide

/-! ### Decoding: words written out bit by bit from R62 to R66 -/

/-- OPC 00000001, ARG 00000000, N = 2; operand 48000.0. -/
theorem test_decode_init :
    decode [0b00000001000000000000000000000010#32, 0x473B8000#32] = .ok (.init 2 0x473B8000#32, []) := by decide
/-- OPC 00000010, ARG and N zero. -/
theorem test_decode_reset : decode [0b00000010000000000000000000000000#32] = .ok (.reset, []) := by decide
/-- OPC 00000011, ARG 00000001: P = DIST, LAW = LIN; operands 1.0 and 10.0. -/
theorem test_decode_cfg_dist_lin :
    decode [0b00000011000000010000000000000000#32, 0x3F800000#32, 0x41200000#32]
      = .ok (.cfg .dist .lin 0x3F800000#32 0x41200000#32, []) := by decide
/-- OPC 00000011, ARG 00000010: P = GAIN, LAW = LOG; operands 0.25 and 0.0. -/
theorem test_decode_cfg_gain_log :
    decode [0b00000011000000100000000000000000#32, 0x3E800000#32, 0x00000000#32]
      = .ok (.cfg .gain .log 0x3E800000#32 0x00000000#32, []) := by decide
/-- OPC 00000100, ARG 00000000, N = 14; the first sample stays in the stream. -/
theorem test_decode_proc :
    decode [0b00000100000000000000000000001110#32, 0x3F000000#32] = .ok (.proc 14, [0x3F000000#32]) := by decide
/-- OPC 00000101, ARG 00000000, N = 0x803C. -/
theorem test_decode_rdreg : decode [0b00000101000000001000000000111100#32] = .ok (.rdreg 0x803C, []) := by decide
/-- T-DEC rows 1 to 4, 21, 22, 24, 25: reserved opcodes and fields that must be zero. -/
theorem test_decode_rejects_opcode :
    [0x00000000#32, 0x06000000#32, 0xFFFFFFFF#32].map decodeHeader
      = [.error .reservedOpcode, .error .reservedOpcode, .error .reservedOpcode] := by decide
theorem test_decode_rejects_field :
    [0x01010002#32, 0x02010000#32, 0x02000001#32, 0x03040000#32, 0x03000001#32, 0x04010000#32, 0x05010000#32].map
        decodeHeader
      = [.error (.reservedField .init), .error (.reservedField .reset), .error (.reservedField .reset),
          .error (.reservedField .cfg), .error (.reservedField .cfg), .error (.reservedField .proc),
          .error (.reservedField .rdreg)] := by decide
/-- Operand words still to come, and no word at all. -/
theorem test_decode_short :
    decode [0x01000002#32] = .error (.truncated .init) ∧ decode [] = .error .noWord := by decide
/-- The rows of the opcode table, numbered as the table numbers their bits. -/
theorem test_decodeTableWord :
    decodeTableWord 32 0x01000000 = some (.init 0 0#32) ∧ decodeTableWord 32 0x02000000 = some .reset
      ∧ decodeTableWord 32 0x03000000 = some (.cfg .gain .lin 0#32 0#32) ∧ decodeTableWord 32 0x04000000 = some (.proc 0)
      ∧ decodeTableWord 32 0x05000000 = some (.rdreg 0) ∧ decodeTableWord 32 0x06000000 = none
      ∧ decodeTableWord 64 0x473B800001000002 = some (.init 2 0x473B8000#32) := by decide

/-! ### One step of each command -/

/-- The example of R120. -/
theorem test_init :
    (after (step (fresh [0x01000002#32, 0x473B8000#32]))).map
        (fun t => (t.mode, t.cursor, [t.nch, t.fadeStart, t.fadeEnd, t.fadeLen, t.silCnt]))
      = some (.ready, 2, [2#32, 48000#32, 96000#32, 48000#32, 96000#32]) := by decide +kernel
/-- T-DEC row 12: `nch > MAXCH`. -/
theorem test_init_refused :
    (after (step (fresh [0x01000003#32, 0x473B8000#32]))).map (fun t => (t.mode, t.err, t.nch, t.fs))
      = some (.fault, .config, 0#32, 0#32) := by decide +kernel
/-- The example of R122. -/
theorem test_reset :
    (after (step { ready [0x02000000#32] with
        silCnt := 3#32
        banks := [{ Bank.zero with st0 := { s1 := 0x3E000000#32, s2 := 0xBF400000#32 } }, Bank.zero] })).map
        (fun t => (t.banks, t.silCnt))
      = some ([Bank.zero, Bank.zero], 8#32) := by decide +kernel
/-- The example of R74: `CFG DIST, LIN, 1.0, 10.0` at 1000.0 Hz. -/
theorem test_cfg :
    (after (step { ready [0x03010000#32, 0x3F800000#32, 0x41200000#32] with fs := 0x447A0000#32 })).map State.dist
      = some { cur := 0#32, tgt := 0x3F800000#32, rem := 10#32, step := 0x3DCCCCCD#32, law := .lin } := by
  decide +kernel
/-- T-SM-4: `CFG GAIN, LIN, 0.5, 1.0` at 1000.0 Hz, one step. -/
theorem test_cfg_one_step :
    (after (step { ready [0x03000000#32, 0x3F000000#32, 0x3F800000#32] with fs := 0x447A0000#32 })).map State.gain
      = some { cur := 0x3F800000#32, tgt := 0x3F000000#32, rem := 1#32, step := 0xBF000000#32, law := .lin } := by
  decide +kernel
/-- T-PL-1: -0.25 answers -1.0. -/
theorem test_proc :
    (after (step (active [0x04000001#32, 0xBE800000#32]))).map (fun t => (t.output, t.silCnt, t.cursor))
      = some ([0xBF800000#32], 0#32, 2) := by decide +kernel
/-- Program P3, frames 1 and 2, from a distortion amount of 1.0: the bank is engaged, and rings on silence. -/
theorem test_proc_engaged :
    (after (step { active [0x04000002#32, 0x3F800000#32, 0x00000000#32] with
        dist := { cur := 0x3F800000#32, tgt := 0x3F800000#32, rem := 0#32, step := 0#32, law := .lin } })).map
        (fun t => (t.output, t.silCnt, (t.bank 0).st3))
      = some ([0x3F800000#32, 0x3F800000#32], 1#32, { s1 := 0xBDA00000#32, s2 := 0xBDA00000#32 }) := by
  decide +kernel
/-- The example of R124: MODE 1, PHASE 2. -/
theorem test_rdreg : (after (step (ready [0x05000000#32]))).map State.output = some [0x00000009#32] := by
  decide +kernel
/-- T-DEC row 10: an unmapped address. -/
theorem test_rdreg_unmapped :
    (after (step (fresh [0x05000007#32]))).map (fun t => (t.mode, t.err, t.output)) = some (.fault, .addr, []) := by
  decide +kernel
/-- Placed by `withFetchWord` after reset, each row of the table is the very next command: RDREG answers (T-DEC row
9), the four others raise what they raise in `UNINIT`. -/
theorem test_withFetchWord :
    (after (step (State.reset.withFetchWord 32 0x05000000))).map State.output = some [8#32]
      ∧ [0x02000000, 0x03000000, 0x04000000].map
          (fun w => (after (step (State.reset.withFetchWord 32 w))).map State.err)
        = [some .state, some .state, some .state]
      ∧ (after (step (State.reset.withFetchWord 32 0x01000000))).map State.err = some .config := by
  decide +kernel

/-! ### The shared operations -/

/-- T-FP: ties away from zero, saturation, a negative time, infinity. -/
theorem test_ms2n :
    ms2n 0x41200000#32 0x447A0000#32 = 10#32 ∧ ms2n 0x3F000000#32 0x447A0000#32 = 1#32
      ∧ ms2n 0x40200000#32 0x447A0000#32 = 3#32 ∧ ms2n 0x41A00000#32 0x472C4400#32 = 882#32
      ∧ ms2n 0xC0A00000#32 0x473B8000#32 = 0#32 ∧ ms2n 0x7F800000#32 0x447A0000#32 = 0xFFFFFFFF#32
      ∧ ms2n 0x447A0000#32 0x501502F9#32 = 0xFFFFFFFF#32 := by decide +kernel
/-- T-SM-1, frames 3, 9 and 10: rounded sums, then a landing by a write. -/
theorem test_smNext :
    (smNext { cur := 0x3E4CCCCD#32, tgt := 0x3F800000#32, rem := 8#32, step := 0x3DCCCCCD#32, law := .lin }).cur
        = 0x3E99999A#32
      ∧ (smNext { cur := 0x3F4CCCCE#32, tgt := 0x3F800000#32, rem := 2#32, step := 0x3DCCCCCD#32, law := .lin }).cur
        = 0x3F666668#32
      ∧ (smNext { cur := 0x3F666668#32, tgt := 0x3F800000#32, rem := 1#32, step := 0x3DCCCCCD#32, law := .lin }).cur
        = 0x3F800000#32 := by decide +kernel
/-- T-BQ-2, second row: fails if a multiply-add is fused or the order of the operations is changed. -/
theorem test_bqNext :
    let k : Coef := { b0 := 0x3DCCCCCD#32, b1 := 0x3E4CCCCD#32, b2 := 0x3DCCCCCD#32, a1 := 0xBF000000#32, a2 := 0x3E800000#32 }
    let st : Stage := { s1 := 0x3E800000#32, s2 := 0x3D99999A#32 }
    bqOut k st 0x3E99999A#32 = 0x3E8F5C29#32
      ∧ bqNext k st 0x3E99999A#32 = { s1 := 0x3E8CCCCD#32, s2 := 0xBD23D70A#32 } := by decide +kernel
/-- T-WS: both zeros, -1e-30, a NaN sample, a zero gain. -/
theorem test_wsShape :
    wsShape 0x3F400000#32 0x00000000#32 = 0x3F400000#32 ∧ wsShape 0x3F400000#32 0x80000000#32 = 0x3F400000#32
      ∧ wsShape 0x3F400000#32 0x8DA24260#32 = 0xBF400000#32 ∧ wsShape 0x3F400000#32 0x7FC00000#32 = 0xBF400000#32
      ∧ wsShape 0x00000000#32 0xBF000000#32 = 0x80000000#32 := by decide +kernel
/-- T-SF-2: the multipliers 0.75 and 0.25, and +0.0 when muted. -/
theorem test_fadeSample :
    fadeSample { ready [] with silCnt := 5#32 } 0xBF800000#32 = 0xBF400000#32
      ∧ fadeSample { ready [] with silCnt := 7#32 } 0x3F800000#32 = 0x3E800000#32
      ∧ fadeSample (ready []) 0xBF800000#32 = 0x00000000#32 := by decide +kernel
/-- T-DEC-R: addresses on both sides of the edges of the map, for `MAXCH = 2`. -/
theorem test_memRead :
    memRead (ready []) 0x8004 = some 0x3F000000#32 ∧ memRead (ready []) 0x803C = some 0x3F000000#32
      ∧ memRead (ready []) 0x8003 = some 0xBE800000#32 ∧ memRead (ready []) 0x100F = some 0#32
      ∧ [0x0007, 0x000F, 0x0015, 0x0017, 0x001D, 0x0020, 0x0FFF, 0x1010, 0x7FFF, 0x8005, 0x8007, 0x8040, 0xFFFF].all
          (fun a => memRead (ready []) a == none) = true := by decide +kernel
/-- R43: bits 7 to 0 first. -/
theorem test_streamBytes : streamBytes [0x473B8000#32] = [0x00#8, 0x80#8, 0x3B#8, 0x47#8] := by decide
/-- R71, with the words of program P2 beside its text. -/
theorem test_assemble :
    assemble "CFG GAIN, LIN, 0.5, 4.0 ; comment\nFRAME 0.5, -0.3\nPEEK GAIN\nINIT 1000.0, 2".toList
      = some [0x03000000#32, 0x3F000000#32, 0x40800000#32, 0x04000001#32, 0x3F000000#32, 0xBE99999A#32,
          0x05000010#32, 0x01000002#32, 0x447A0000#32] := by decide +kernel

/-! ### Witnesses: for each statement with hypotheses, a state and operands that meet them all together

A hypothesis `step s = .next t` or `exec i s = .next t` names the next state `t`; it is met by the state that the laws
`step_of_por_none` and `exec_eq` compute. -/

theorem ready_sound_empty : (ready []).sound := by unfold State.sound; decide +kernel
theorem ready_sound (ws : List Word) : (ready ws).sound := ready_sound_empty
theorem ready_between (ws : List Word) : (ready ws).betweenCommands := ⟨rfl, rfl⟩
theorem fresh_between (ws : List Word) : (fresh ws).betweenCommands := ⟨rfl, rfl⟩

/-- A cascade that holds a NaN in every register. -/
def poisonedStage : Stage := { s1 := 0x7FC00000#32, s2 := 0x7FC00000#32 }
def poisonedBank : Bank := { st0 := poisonedStage, st1 := poisonedStage, st2 := poisonedStage, st3 := poisonedStage }

/-- A state in `FAULT`, the code set. -/
def faulted (ws : List Word) : State := { fresh ws with mode := .fault, err := .illegal }

theorem witness_StepKeepsStateSound : (ready [0x04000000#32]).sound ∧ ∃ t, step (ready [0x04000000#32]) = .next t :=
  ⟨ready_sound _, _, step_of_por_none _ rfl⟩
theorem witness_StepKeepsThresholdsOrdered :
    paramsSound (ready []).params = true ∧ (ready []).thresholdsOrdered ∧ ∃ t, step (ready []) = .next t :=
  ⟨by decide +kernel, by unfold State.thresholdsOrdered; decide, _, step_of_por_none _ rfl⟩
/-- An INIT whose words come together. -/
theorem witness_StepRunsDecodedCommand :
    (fresh [0x0100FFFF#32, 0x473B8000#32]).por = none ∧ (fresh [0x0100FFFF#32, 0x473B8000#32]).procLeft = 0
      ∧ decode ((fresh []).pending ++ (fresh [0x0100FFFF#32, 0x473B8000#32]).input)
          = .ok (.init 65535 0x473B8000#32, [])
      ∧ allowedIn (Instr.init 65535 0x473B8000#32).opcode (fresh []).mode = true :=
  ⟨rfl, rfl, by decide, rfl⟩
/-- A CFG that holds two words when its last comes, with a RESET behind it. -/
theorem witness_StepRunsDecodedCommand_resumed :
    decode ([0x03010000#32, 0x3F800000#32] ++ (ready [0x41200000#32, 0x02000000#32]).input)
        = .ok (.cfg .dist .lin 0x3F800000#32 0x41200000#32, [0x02000000#32])
      ∧ allowedIn (Instr.cfg .dist .lin 0x3F800000#32 0x41200000#32).opcode (ready []).mode = true
      ∧ (ready []).por = none ∧ (ready []).procLeft = 0
      ∧ [0x03010000#32, 0x3F800000#32].length ≤ decodedLength (.cfg .dist .lin 0x3F800000#32 0x41200000#32) :=
  ⟨by decide, rfl, rfl, rfl, by decide⟩
/-- R69 step 4, R74: a CFG that holds two words runs when its last comes: 1000 ms at 4 Hz are 4 steps of 0.25. -/
theorem test_step_cfg_wordwise :
    (after (step { ready [0x447A0000#32] with pending := [0x03010000#32, 0x3F800000#32], cursor := 5 })).map
        (fun t => (t.cursor, t.pending, t.dist.tgt, t.dist.rem, t.dist.step))
      = some (6, [], 0x3F800000#32, 4#32, 0x3E800000#32) := by decide +kernel

/-- Clause 1 of HeaderChecksInOrder: in `FAULT`. -/
theorem witness_HeaderChecksInOrder_fault :
    (faulted [0x05000000#32]).por = none ∧ (faulted [0x05000000#32]).betweenCommands
      ∧ (faulted [0x05000000#32]).mode = .fault := ⟨rfl, ⟨rfl, rfl⟩, rfl⟩
/-- The premises of all clauses, for every word at the front. -/
theorem witness_HeaderChecksInOrder_idle (h : Word) :
    (ready [h]).por = none ∧ (ready [h]).betweenCommands ∧ (ready [h]).input = h :: [] ∧ (ready [h]).mode ≠ .fault :=
  ⟨rfl, ⟨rfl, rfl⟩, rfl, Mode.noConfusion⟩
/-- Clauses 2 to 5, at the words next to a sound header. -/
theorem witness_HeaderChecksInOrder_words :
    (ready []).mode ≠ .fault
      ∧ (0x00FFFFFF#32).toNat / 2 ^ 24 = 0 ∧ 5 < (0x06000000#32).toNat / 2 ^ 24 ∧ 5 < (0xFFFFFFFF#32).toNat / 2 ^ 24
      ∧ ((0x01010000#32).toNat / 2 ^ 24 = 1 ∧ (0x01010000#32).toNat / 2 ^ 16 % 2 ^ 8 ≠ 0)
      ∧ ((0x04FF0000#32).toNat / 2 ^ 24 = 4 ∧ (0x04FF0000#32).toNat / 2 ^ 16 % 2 ^ 8 ≠ 0)
      ∧ ((0x05800000#32).toNat / 2 ^ 24 = 5 ∧ (0x05800000#32).toNat / 2 ^ 16 % 2 ^ 8 ≠ 0) := by decide
theorem witness_HeaderChecksInOrder_words' :
    ((0x02000001#32).toNat / 2 ^ 24 = 2 ∧ (0x02000001#32).toNat % 2 ^ 24 ≠ 0)
      ∧ ((0x02FFFFFF#32).toNat / 2 ^ 24 = 2 ∧ (0x02FFFFFF#32).toNat % 2 ^ 24 ≠ 0)
      ∧ ((0x03040000#32).toNat / 2 ^ 24 = 3 ∧ (0x03040000#32).toNat / 2 ^ 18 % 2 ^ 6 ≠ 0)
      ∧ ((0x03030001#32).toNat / 2 ^ 24 = 3 ∧ (0x03030001#32).toNat % 2 ^ 16 ≠ 0) := by decide
/-- Clause 6: a sound header in a mode that does not allow it, in each of the two modes that decode. -/
theorem witness_HeaderChecksInOrder_mode :
    (decodeHeader 0x02000000#32 = .ok .reset ∧ (fresh [0x02000000#32]).mode ≠ .fault
        ∧ allowedIn .reset (fresh [0x02000000#32]).mode = false)
      ∧ (decodeHeader 0x0100FFFF#32 = .ok .init ∧ (ready [0x0100FFFF#32]).mode ≠ .fault
        ∧ allowedIn .init (ready [0x0100FFFF#32]).mode = false) := by decide
theorem witness_DecodeOfEncodeIsIdentity :
    (Instr.init 65535 0xFFFFFFFF#32).wellFormed = true ∧ (Instr.cfg .dist .log 0#32 0#32).wellFormed = true := by decide
theorem witness_DecodedWordsAreTheEncoding :
    decode [0x03030000#32, 0x7FC00000#32, 0x7F800000#32, 0x02000000#32]
      = .ok (.cfg .dist .log 0x7FC00000#32 0x7F800000#32, [0x02000000#32]) := by decide
theorem witness_LittleEndianLayoutReadsBack : 1 < [0x01000002#32, 0x473B8000#32].length ∧ 3 < 4 := by decide
theorem witness_CursorCountsWordsTaken :
    (ready [0x02000000#32]).por = none ∧ ∃ t, step (ready [0x02000000#32]) = .next t := ⟨rfl, _, step_of_por_none _ rfl⟩
theorem witness_ResponsesOnlyGrow : ∃ t, step (ready [0x05000000#32]) = .next t := ⟨_, step_of_por_none _ rfl⟩
/-- Two frames asked for, three samples there. -/
theorem witness_WaitingProcResumesUnchanged :
    (ready []).mode = .ready ∧ (ready []).betweenCommands ∧ (ready []).por = none
      ∧ [0x3F000000#32].length < 2 * (ready []).nch.toNat
      ∧ ∃ u, exec (.proc 2) { ready [] with input := [0x3F000000#32] } = .next u :=
  ⟨rfl, ⟨rfl, rfl⟩, rfl, by decide, _, exec_eq _ _⟩
theorem witness_OperandsAwaitedBeforeEffect :
    (fresh [0x01000002#32]).por = none ∧ (fresh [0x01000002#32]).procLeft = 0
      ∧ (fresh [0x01000002#32]).mode = .uninit ∧ decodeHeader 0x01000002#32 = .ok .init
      ∧ (fresh []).pending ++ (fresh [0x01000002#32]).input = [0x01000002#32]
      ∧ (ready [0x03030000#32]).mode = .ready ∧ decodeHeader 0x03030000#32 = .ok .cfg
      ∧ (ready []).pending ++ (ready [0x03030000#32, 0#32]).input = [0x03030000#32, 0#32]
      ∧ [0x03030000#32] ++ (ready [0#32]).input = [0x03030000#32, 0#32] :=
  ⟨rfl, rfl, rfl, by decide, rfl, rfl, by decide, rfl, rfl⟩

/-- A command of each of the three codes that a command can raise: STATE, CONFIG, ADDR. -/
theorem witness_CommandFaultsArePrecise :
    (after (exec (.proc 0) (fresh []))).map State.err = some .state
      ∧ (after (exec (.init 3 0x473B8000#32) (fresh []))).map State.err = some .config
      ∧ (after (exec (.rdreg 7) (ready []))).map State.err = some .addr
      ∧ (fresh []).mode ≠ .fault ∧ (ready []).mode ≠ .fault := by decide +kernel
theorem witness_WrongModeRaisesState : (ready []).mode = .ready ∧ (fresh []).mode = .uninit := ⟨rfl, rfl⟩
theorem witness_FaultSwallowsEveryWord : (faulted [0#32]).mode = .fault ∧ (faulted [0#32]).por = none := ⟨rfl, rfl⟩
theorem witness_OnlyPowerOnLeavesFault :
    { ready [] with por := some 0 }.por = some 0 ∧ (faulted []).por = none
      ∧ (∃ t, step (faulted [0#32]) = .next t) ∧ (faulted []).mode = .fault
      ∧ ∃ t, step (fresh []) = .next t ∧ t.mode = .uninit :=
  ⟨rfl, rfl, ⟨_, step_of_por_none _ rfl⟩, rfl, _, step_of_por_none _ rfl, rfl⟩
theorem witness_PowerOnCutsAnywhere :
    (ready [0x05000000#32]).por = none ∧ ∃ t, step (ready [0x05000000#32]) = .next t :=
  ⟨rfl, _, step_of_por_none _ rfl⟩
/-- One channel and `MAXCH` channels; the least sample rate above zero and the largest finite one. -/
theorem witness_InitEntersReady :
    (fresh []).mode = .uninit ∧ (fresh []).params.maxch ≤ 1024 ∧ 1 ≤ 1 ∧ 1 ≤ (fresh []).params.maxch
      ∧ 2 ≤ (fresh []).params.maxch ∧ fgt 0x00000001#32 posZero = true ∧ 0x00000001#32 ≠ posInf
      ∧ fgt 0x7F7FFFFF#32 posZero = true ∧ 0x7F7FFFFF#32 ≠ posInf := by decide
/-- T-DEC rows 11 to 17, one for each clause. -/
theorem witness_InitRefusesBadConfiguration :
    (fresh []).mode = .uninit ∧ (fresh []).params.maxch < 3 ∧ isNaN 0x7FC00000#32 = true
      ∧ fge posZero 0x00000000#32 = true ∧ fge posZero 0x80000000#32 = true ∧ fge posZero 0xBF800000#32 = true
      ∧ 0x7F800000#32 = posInf := by decide
theorem witness_ResetZeroesFilterAndMutes :
    (ready []).mode = .ready ∧ (ready []).banks[0]? = some Bank.zero ∧ (ready []).banks[1]? = some Bank.zero := by decide
theorem witness_ResetIsIdempotent :
    (ready []).mode = .ready ∧ (∃ t, exec .reset (ready []) = .next t)
      ∧ ∃ t, exec (.init 2 0x40800000#32) (fresh []) = .next t ∧ t.mode = .ready :=
  ⟨rfl, ⟨_, exec_eq _ _⟩, _, exec_of_allowed (.init 2 0x40800000#32) (fresh []) rfl, by decide +kernel⟩
theorem witness_SessionIsFixedByInit :
    (ready [0x02000000#32]).por = none ∧ (ready [0x02000000#32]).mode ≠ .uninit
      ∧ ∃ t, step (ready [0x02000000#32]) = .next t := ⟨rfl, by decide, _, step_of_por_none _ rfl⟩
theorem witness_ConstantsNeverChange :
    (∃ t, step (ready []) = .next t) ∧ ∃ t, step { ready [] with por := some 1 } = .next t :=
  ⟨⟨_, step_of_por_none _ rfl⟩, _, step_of_por_some _ 1 rfl⟩

/-- A mapped and an unmapped address, in both modes. -/
theorem witness_RdregAnswersTheMap :
    (ready []).mode ≠ .fault ∧ (fresh []).mode ≠ .fault ∧ memRead (ready []) 6 = some 8#32
      ∧ memRead (ready []) 7 = none := by decide +kernel
/-- The last channel and stage, and a sound state in which that channel is not in use. -/
theorem witness_RegisterMapValues :
    (ready []).params.maxch ≤ 1024 ∧ 1 < (ready []).params.maxch ∧ 3 < 4
      ∧ (ready []).sound ∧ (ready []).nch.toNat ≤ 1 ∧ 5 ≤ 5 ∧ 7 < 8 :=
  ⟨by decide, by decide, by decide, ready_sound _, by decide, by decide, by decide⟩
/-- The addresses on both sides of each edge of R52, for `MAXCH = 2`. -/
theorem witness_UnmappedAddressesExactly :
    (fresh []).params.maxch ≤ 1024
      ∧ [0x7, 0xF, 0x15, 0x17, 0x1D, 0xFFF, 0x1010, 0x7FFF, 0x8005, 0x803F, 0x8040, 0xFFFF].all
          (fun a => memRead (fresh []) a == none) = true
      ∧ [0x6, 0x10, 0x14, 0x18, 0x1C, 0x1000, 0x100F, 0x8000, 0x8004, 0x803C].all
          (fun a => memRead (fresh []) a != none) = true := by decide +kernel
theorem witness_UnusedChannelsReadZero :
    (ready []).sound ∧ (ready []).nch.toNat ≤ 1 ∧ 1 < (ready []).params.maxch ∧ 7 < 8 :=
  ⟨ready_sound _, by decide, by decide, by decide⟩

/-- A ramp of no step, and one of the greatest count, for both laws. -/
theorem witness_CfgStartsRamp :
    (ready []).mode = .ready ∧ ms2n 0x00000000#32 (ready []).fs = 0#32
      ∧ ms2n 0x7F800000#32 (ready []).fs ≠ 0#32 ∧ ms2n 0x43480000#32 (ready []).fs = 1#32 := by decide +kernel
theorem witness_RampLandsOnTarget :
    1 ≤ 10 ∧ ({ Smoother.powerOn 0#32 .lin with rem := 10#32 } : Smoother).rem.toNat ≤ 10 := by decide
/-- `SM_REM` 0, 1 and 2, the last for both laws. -/
theorem witness_AdvanceTakesOneStep :
    (Smoother.powerOn 0#32 .lin).rem.toNat ≤ 1 ∧ ({ Smoother.powerOn 0#32 .lin with rem := 1#32 } : Smoother).rem.toNat ≤ 1
      ∧ 2 ≤ ({ Smoother.powerOn 0#32 .lin with rem := 2#32 } : Smoother).rem.toNat
      ∧ (Smoother.powerOn 0#32 .lin).law = .lin ∧ (Smoother.powerOn 0#32 .log).law = .log := by decide
theorem witness_BadRampTimesCount :
    fgt 0x00000001#32 posZero = true ∧ 0x00000001#32 ≠ posInf ∧ isNaN 0xFFFFFFFF#32 = true
      ∧ fgt posZero 0x80000001#32 = true ∧ fgt posZero 0xFF800000#32 = true ∧ 0x7F800000#32 = posInf := by decide
/-- At a rate of 1000.0: a product of exactly 2^32, the ramp time just below it, 1e10 (T-SM-6), and a product that
overflows at the greatest finite rate. -/
theorem witness_BadRampTimesCount_product :
    fmul (fdiv 0x4F800000#32 thousand) 0x447A0000#32 = 0x4F800000#32
      ∧ fge (fmul (fdiv 0x4F7FFFFF#32 thousand) 0x447A0000#32) 0x4F800000#32 = false
      ∧ fge (fmul (fdiv 0x501502F9#32 thousand) 0x447A0000#32) 0x4F800000#32 = true
      ∧ fmul (fdiv 0x7F7FFFFF#32 thousand) 0x7F7FFFFF#32 = posInf
      ∧ ms2n 0x501502F9#32 0x447A0000#32 = 0xFFFFFFFF#32 := by decide +kernel
/-- A resting smoother, and a ramp from 0.0 towards 1.0 whose first frame is bypassed. -/
theorem witness_BypassedBlockIgnoresFilter :
    engaged (smConfigure 0x40800000#32 .lin 0x3F800000#32 0x7F800000#32 (ready []).dist).cur = false
      ∧ (ready []).dist.rem = 0#32 ∧ engaged (ready []).dist.cur = false ∧ engaged (ready []).dist.tgt = false := by decide +kernel
theorem witness_NaNPoisonsCascade : isNaN 0x7F800001#32 = true ∧ isNaN poisonedBank.st0.s1 = true := by decide
theorem witness_PoisonLastsUntilReset :
    { ready [] with banks := [poisonedBank, Bank.zero] }.banks[0]? = some poisonedBank ∧ bankPoisoned poisonedBank = true
      ∧ (ready []).mode = .ready ∧ 0 < (ready []).nch.toNat := by decide
/-- Channel 0 alike, channel 1 not. -/
theorem witness_ChannelsAreIndependent :
    { ready [] with banks := [Bank.zero, poisonedBank] }.banks[0]? = (ready []).banks[0]?
      ∧ { ready [] with banks := [Bank.zero, poisonedBank] }.bankCoef 0 = (ready []).bankCoef 0
      ∧ [0x3F000000#32, 0#32][0]? = [0x3F000000#32, 0x3F800000#32][0]? := by decide

theorem witness_HardClipIsExact : isNaN 0x7F800000#32 = false ∧ isNaN 0x7F800001#32 = true := by decide
theorem witness_OutputIsSignQuantised :
    0xBF800000#32 ∈ frameOut (active []) [0xBE800000#32] ∧ (active []).phase = .active
      ∧ isNaN (frameGain (active [])) = false ∧ 0x00000000#32 ∈ frameOut (ready []) [0xBE800000#32]
      ∧ (ready []).phase = .muted := by decide +kernel
theorem witness_SampleCountIsMonotone :
    fge 0x447A0000#32 posZero = true ∧ fge 0x44FA0000#32 0x447A0000#32 = true ∧ isFinite 0x44FA0000#32 = true
      ∧ fgt 0x473B8000#32 posZero = true ∧ 0x473B8000#32 ≠ posInf := by decide
theorem witness_SmallCountsConvertExactly : (0x00FFFFFF#32).toNat < 2 ^ 24 := by decide
/-- Frames 3 (the last active one), 4 and 7 (the edges of the fade) and 8 (the first muted one) of a silent run with
thresholds 4 and 8. -/
theorem witness_SilenceFadesToZero :
    (active []).silCnt = 0#32 ∧ (active []).thresholdsOrdered
      ∧ (∀ xs ∈ List.replicate 9 [0x80000000#32], frameSilent xs = true)
      ∧ (List.replicate 9 [0x80000000#32])[3]? = some [0x80000000#32] ∧ 3 < (active []).fadeStart.toNat
      ∧ (List.replicate 9 [0x80000000#32])[8]? = some [0x80000000#32] ∧ (active []).fadeEnd.toNat ≤ 8
      ∧ ((List.replicate 9 [0x80000000#32])[4]? = some [0x80000000#32] ∧ (active []).fadeStart.toNat ≤ 4)
      ∧ ((List.replicate 9 [0x80000000#32])[7]? = some [0x80000000#32] ∧ 7 < (active []).fadeEnd.toNat) :=
  ⟨rfl, by unfold State.thresholdsOrdered; decide, by decide, by decide, by decide, by decide, by decide, by decide,
    by decide⟩
theorem witness_AttackIsInstantaneous :
    0x00000001#32 ∈ [0x00000000#32, 0x00000001#32] ∧ 0x00000001#32 ≠ 0x00000000#32 ∧ 0x00000001#32 ≠ 0x80000000#32
      ∧ 0 < (ready []).fadeStart.toNat := by decide
theorem witness_ResetStaysMutedOnSilence :
    (active []).mode = .ready ∧ (active []).thresholdsOrdered ∧ (∃ t, exec .reset (active []) = .next t)
      ∧ ∀ xs ∈ [[0x00000000#32], [0x80000000#32]], frameSilent xs = true :=
  ⟨rfl, by unfold State.thresholdsOrdered; decide, ⟨_, exec_eq _ _⟩, by decide⟩
theorem witness_FadeStartsAtUnity :
    { ready [] with silCnt := 4#32 }.silCnt = { ready [] with silCnt := 4#32 }.fadeStart ∧ (ready []).fadeLen ≠ 0#32 := by
  decide
/-- The last fading frame: `SIL_CNT = 7`. -/
theorem witness_ShortFadeStaysAboveZero :
    { ready [] with silCnt := 7#32 }.phase = .fading ∧ (ready []).thresholdsOrdered
      ∧ (ready []).fadeLen = (ready []).fadeEnd - (ready []).fadeStart ∧ (ready []).fadeLen.toNat ≤ 2 ^ 24 :=
  ⟨by decide, by unfold State.thresholdsOrdered; decide, by decide, by decide⟩
theorem witness_FadeMultiplierNeverZero :
    { ready [] with silCnt := 7#32 }.sound ∧ { ready [] with silCnt := 7#32 }.thresholdsOrdered
      ∧ { ready [] with silCnt := 7#32 }.phase = .fading :=
  ⟨by unfold State.sound; decide +kernel, by unfold State.thresholdsOrdered; decide, by decide⟩

theorem witness_ProcRunsItsFrames :
    (ready [0x3F000000#32, 0xBE800000#32, 0x02000000#32]).mode = .ready
      ∧ (ready [0x3F000000#32, 0xBE800000#32, 0x02000000#32]).betweenCommands
      ∧ framesFit (ready []).nch.toNat [[0x3F000000#32], [0xBE800000#32]]
      ∧ (ready [0x3F000000#32, 0xBE800000#32, 0x02000000#32]).input
        = [[0x3F000000#32], [0xBE800000#32]].flatten ++ [0x02000000#32] :=
  ⟨rfl, ⟨rfl, rfl⟩, by unfold framesFit; decide, rfl⟩
theorem witness_FrameWritesItsRegisters :
    (ready []).banks[1]? = some Bank.zero ∧ frameSilent [0x80000000#32] = true ∧ frameSilent [0x00000001#32] = false := by
  decide
/-- The edges of the three phases: `SIL_CNT` 3, 4, 7 and 8. -/
theorem witness_FrameAnswersEachChannel :
    [0x3F000000#32][0]? = some 0x3F000000#32 ∧ 3#32 < (ready []).fadeStart
      ∧ ((ready []).fadeStart ≤ 4#32 ∧ 4#32 < (ready []).fadeEnd)
      ∧ ((ready []).fadeStart ≤ 7#32 ∧ 7#32 < (ready []).fadeEnd)
      ∧ ((ready []).fadeStart ≤ (ready []).silCnt ∧ (ready []).fadeEnd ≤ (ready []).silCnt) := by decide
theorem witness_EmptyBlockDoesNothing :
    (ready [0x04000000#32, 0#32]).mode = .ready ∧ (ready [0x04000000#32, 0#32]).betweenCommands
      ∧ (ready [0x04000000#32, 0#32]).por = none ∧ (ready [0x04000000#32, 0#32]).input = 0x04000000#32 :: [0#32] :=
  ⟨rfl, ⟨rfl, rfl⟩, rfl, rfl⟩
theorem witness_BlockSplitIsInvisible :
    (ready []).mode = .ready ∧ (ready []).betweenCommands ∧ (ready []).por = none
      ∧ framesFit (ready []).nch.toNat [[0x3F800000#32]] ∧ framesFit (ready []).nch.toNat []
      ∧ ([[0x3F800000#32]] ++ ([] : List (List Word))).length < 2 ^ 16 :=
  ⟨rfl, ⟨rfl, rfl⟩, rfl, by unfold framesFit; decide, by unfold framesFit; decide, by decide⟩
theorem witness_EngageLagsOneFrame :
    (ready []).mode = .ready ∧ ms2n 0x00000000#32 (ready []).fs = 0#32
      ∧ (∃ t, exec (.cfg .dist .lin 0x3F800000#32 0x00000000#32) (ready []) = .next t)
      ∧ ∃ t, exec (.cfg .gain .log 0x3F000000#32 0x00000000#32) (ready []) = .next t :=
  ⟨rfl, by decide +kernel, ⟨_, exec_eq _ _⟩, _, exec_eq _ _⟩
theorem witness_DataNeverFaults : (ready []).mode = .ready := rfl
theorem witness_ComparisonsWithNaNAreFalse : isNaN 0x7F800001#32 = true ∧ isNaN 0xFFFFFFFF#32 = true := by decide
theorem witness_NaNOperandsYieldNaN : isNaN 0x7FC00000#32 = true := by decide

end Sys2Proof.Tests
end

section
/-! The statements about the floating-point primitives (00_scope.md section 5.6): comparisons and operations with a
NaN, and the conversions of small counts. -/

namespace Sys2Proof.Machine

/-! ### Comparisons with a NaN (R17) -/

/-- The guard the three comparisons share fails where an operand is a NaN, whatever they compare behind it. -/
theorem comparisonGuard_false_of_isNaN {a b : Word} (h : isNaN a = true ∨ isNaN b = true) (p : Bool) :
    (!isNaN a && !isNaN b && p) = false := by
  rcases h with ha | hb
  · simp [ha]
  · simp [hb]

theorem feq_false_of_isNaN {a b : Word} (h : isNaN a = true ∨ isNaN b = true) : feq a b = false :=
  comparisonGuard_false_of_isNaN h _

theorem fge_false_of_isNaN {a b : Word} (h : isNaN a = true ∨ isNaN b = true) : fge a b = false :=
  comparisonGuard_false_of_isNaN h _

theorem fgt_false_of_isNaN {a b : Word} (h : isNaN a = true ∨ isNaN b = true) : fgt a b = false :=
  comparisonGuard_false_of_isNaN h _

/-! ### Magnitudes whose value is a count (R19, R20)

One is `2 ^ 149` units, so a magnitude of `k * 2 ^ 149` units has the value `k`. -/

/-- A magnitude that is an integer already is the nearest integer-valued one to itself. -/
theorem roundedMag_of_units_eq {m k : Nat} (hm : m < infMag) (hk : magUnits m = k * 2 ^ 149) : roundedMag m = m := by
  have nearest : (2 * magUnits m + 2 ^ 149) / 2 ^ 150 = k := by omega
  have exact_value : roundMag (magUnits m) 1 = m := by simpa using roundMag_magUnits m 1 hm Nat.one_pos
  rw [roundedMag, if_neg (Nat.ne_of_lt hm), nearest, ← hk, exact_value]

/-- The integer part of a magnitude that is a count of 32 bits is the count: nothing is cut off and nothing saturates. -/
theorem countOfMag_of_units_eq {m k : Nat} (hm : m < infMag) (hk : magUnits m = k * 2 ^ 149) (hlt : k < 2 ^ 32) :
    countOfMag m = k := by
  rw [countOfMag, if_neg (Nat.ne_of_lt hm), hk, Nat.mul_div_cancel _ (by positivity)]
  exact Nat.min_eq_left (by omega)

theorem f2uSat_u2f (n : Word) (hn : n.toNat < 2 ^ 24) : f2uSat (u2f n) = n := by
  obtain ⟨m, hm, hunits, hu2f⟩ := u2f_small n hn
  apply BitVec.eq_of_toNat_eq
  rw [hu2f, toNat_f2uSat_packFloat m hm.le, countOfMag_of_units_eq hm hunits n.isLt]

theorem fround_u2f (n : Word) (hn : n.toNat < 2 ^ 24) : fround (u2f n) = u2f n := by
  obtain ⟨m, hm, hunits, hu2f⟩ := u2f_small n hn
  rw [hu2f, fround_packFloat m hm.le, roundedMag_of_units_eq hm hunits]

/-! ### The statements -/

/-- Settles O44: below `2 ^ 24` the conversion is exact (`u2f_small`), and rounding and truncation keep an exact
integer. -/
theorem smallCountsConvertExactly : Obligations.SmallCountsConvertExactly :=
  fun n hn => ⟨f2uSat_u2f n hn, fround_u2f n hn⟩

/-- Settles O59: a NaN fails the guard of every comparison; the two zeros stand at one place on the number line. -/
theorem comparisonsWithNaNAreFalse : Obligations.ComparisonsWithNaNAreFalse := by
  refine ⟨fun a b h => ⟨feq_false_of_isNaN h, fge_false_of_isNaN h, fgt_false_of_isNaN h⟩, ?_, ?_, ?_⟩
  · decide
  · decide
  · decide

/-- Settles O60: each operation answers its free NaN before it looks at anything else. -/
theorem naNOperandsYieldNaN : Obligations.NaNOperandsYieldNaN :=
  fun a b h => ⟨isNaN_fadd a b h, isNaN_fsub a b h, isNaN_fmul a b h, isNaN_fdiv a b h⟩

end Sys2Proof.Machine
end

section
/-! The count of samples that `ms2n` gives (R21, R98): for operands that are finite and not below zero each of its
operations works on the magnitudes alone, and is monotone in them. -/

namespace Sys2Proof.Machine

/-! ### Words that are at least zero -/

theorem fge_zero_iff (w : Word) : fge w posZero = true ↔ isNaN w = false ∧ 0 ≤ orderKey w := by
  have hn : isNaN posZero = false := by decide
  have hz : orderKey posZero = 0 := by decide
  simp [fge, hn, hz]

/-- Where a word stands at zero or above, it stands at its magnitude; the negative zero stands at zero. -/
theorem orderKey_of_nonneg {w : Word} (h : 0 ≤ orderKey w) : orderKey w = fMag w := by
  unfold orderKey at h ⊢
  split
  · next hs => rw [if_pos hs] at h; omega
  · rfl

/-- A word that is at least zero has no sign, unless it is the negative zero. -/
theorem nonneg_cases {w : Word} (h : fge w posZero = true) : fSign w = false ∨ w = negZero := by
  obtain ⟨-, hkey⟩ := (fge_zero_iff w).1 h
  cases hs : fSign w with
  | false => exact Or.inl rfl
  | true =>
    have hmag : fMag w = 0 := by
      rw [orderKey, if_pos hs] at hkey
      omega
    have hzero : packFloat true 0 = negZero := by decide
    right
    rw [← packFloat_fields w, hs, hmag, hzero]

/-- Among words that are at least zero the order is that of the magnitudes (R17). -/
theorem fMag_le_of_fge {a b : Word} (ha : fge a posZero = true) (hb : fge b a = true) :
    fMag a ≤ fMag b ∧ fge b posZero = true := by
  obtain ⟨-, ha0⟩ := (fge_zero_iff a).1 ha
  simp only [fge, Bool.and_eq_true, Bool.not_eq_true', decide_eq_true_eq] at hb
  obtain ⟨⟨hnb, -⟩, hab⟩ := hb
  have hb0 : 0 ≤ orderKey b := le_trans ha0 hab
  rw [orderKey_of_nonneg ha0, orderKey_of_nonneg hb0] at hab
  exact ⟨by omega, (fge_zero_iff b).2 ⟨hnb, hb0⟩⟩

/-! ### The operations of `ms2n` on magnitudes -/

theorem magUnits_zero : magUnits 0 = 0 := by decide

theorem roundMag_zero {d : Nat} (hd : 0 < d) : roundMag 0 d = 0 := by
  simpa [magUnits_zero] using roundMag_magUnits 0 d (by decide) hd

/-- The magnitude of `1000.0`. -/
def thousandMag : Nat := fMag thousand

theorem thousand_eq_packFloat : thousand = packFloat false thousandMag := (packFloat_fields thousand).symm

theorem one_le_thousand_units : 2 ^ 149 ≤ magUnits thousandMag := by decide +kernel

/-- The magnitude of a number of seconds, from that of the milliseconds. -/
def secondsMag (m : Nat) : Nat := roundMag (magUnits m * 2 ^ 149) (magUnits thousandMag)

theorem secondsMag_mono {m m' : Nat} (h : m ≤ m') : secondsMag m ≤ secondsMag m' :=
  have hpos : 0 < magUnits thousandMag := magUnits_pos _ (by decide)
  roundMag_mono _ _ _ _ hpos hpos (Nat.mul_le_mul_right _ (Nat.mul_le_mul_right _ (magUnits_mono m m' h)))

theorem secondsMag_zero : secondsMag 0 = 0 := by
  rw [secondsMag, magUnits_zero, Nat.zero_mul, roundMag_zero (magUnits_pos _ (by decide))]

/-- Dividing by 1000.0 does not overflow: the quotient is at most the dividend. -/
theorem secondsMag_lt {m : Nat} (hm : m < infMag) : secondsMag m < infMag := by
  have hle : secondsMag m ≤ roundMag (magUnits m * 2 ^ 149) (2 ^ 149) :=
    roundMag_mono _ _ _ _ (magUnits_pos _ (by decide)) (by positivity)
      (Nat.mul_le_mul_left _ one_le_thousand_units)
  rw [roundMag_magUnits m _ hm (by positivity)] at hle
  omega

/-- The magnitude of the exact number of samples, before it is rounded to an integer. -/
def samplesMag (m f : Nat) : Nat := roundMag (magUnits (secondsMag m) * magUnits f) (2 ^ 149)

theorem samplesMag_mono {m m' : Nat} (f : Nat) (h : m ≤ m') : samplesMag m f ≤ samplesMag m' f :=
  roundMag_mono _ _ _ _ (by positivity) (by positivity)
    (Nat.mul_le_mul_right _ (Nat.mul_le_mul_right _ (magUnits_mono _ _ (secondsMag_mono h))))

/-- `ms2n` on magnitudes. -/
theorem toNat_ms2n_packFloat {m f : Nat} (hm : m < infMag) (hf : f < infMag) :
    (ms2n (packFloat false m) (packFloat false f)).toNat = countOfMag (roundedMag (samplesMag m f)) := by
  have hdiv : fdiv (packFloat false m) thousand = packFloat false (secondsMag m) := by
    rw [thousand_eq_packFloat]
    exact fdiv_packFloat m thousandMag hm (by decide) (by decide)
  have hmul : fmul (packFloat false (secondsMag m)) (packFloat false f) = packFloat false (samplesMag m f) :=
    fmul_packFloat _ _ (secondsMag_lt hm) hf
  rw [ms2n, hdiv, hmul, fround_packFloat (samplesMag m f) (roundMag_le _ _), toNat_f2uSat_packFloat _ (roundedMag_le _)]

/-- The negative zero counts no sample: it stays what it is through every operation but the last. -/
theorem ms2n_negZero {f : Nat} (hf : f < infMag) : ms2n negZero (packFloat false f) = 0#32 := by
  have hf' : f < 2 ^ 31 := Nat.lt_trans hf infMag_lt
  have hdiv : fdiv negZero thousand = negZero := by decide +kernel
  have hmul : fmul negZero (packFloat false f) = negZero := by
    have hn : isNaN negZero = false := by decide
    have hi : isInf negZero = false := by decide
    have hs : fSign negZero = true := by decide
    have hu : units negZero = 0 := by decide
    have hzero : packFloat true 0 = negZero := by decide
    rw [fmul, hn, isNaN_packFloat false f hf.le, hi, isInf_packFloat false f hf', decide_eq_false hf.ne, hu, hs,
      fSign_packFloat false f hf', Nat.zero_mul, roundMag_zero (by positivity)]
    exact hzero
  have hround : f2uSat (fround negZero) = 0#32 := by decide +kernel
  rw [ms2n, hdiv, hmul, hround]

/-! ### The count of samples -/

/-- A sample rate that INIT accepts is a finite positive number (R26). -/
theorem acceptedRate_eq_packFloat {fs : Word} (h : fgt fs posZero = true) (hinf : fs ≠ posInf) :
    fMag fs < infMag ∧ fs = packFloat false (fMag fs) := by
  obtain ⟨hle, hs, -⟩ := (fgt_zero_iff fs).1 h
  have heq : fs = packFloat false (fMag fs) := by
    rw [← hs]; exact (packFloat_fields fs).symm
  refine ⟨Nat.lt_of_le_of_ne hle fun hmag => hinf ?_, heq⟩
  rw [heq, hmag]
  decide

/-- The count of samples, from the magnitudes of the milliseconds and of the sample rate: either zero counts none. -/
theorem toNat_ms2n {ms fs : Word} (h0 : fge ms posZero = true) (hfin : fMag ms < infMag)
    (hfs : fgt fs posZero = true) (hinf : fs ≠ posInf) :
    (ms2n ms fs).toNat = countOfMag (roundedMag (samplesMag (fMag ms) (fMag fs))) := by
  obtain ⟨hf, hfs⟩ := acceptedRate_eq_packFloat hfs hinf
  rcases nonneg_cases h0 with hs | rfl
  · rw [← toNat_ms2n_packFloat hfin hf, ← hfs, ← hs, packFloat_fields]
  · have hzero : samplesMag (fMag negZero) (fMag fs) = 0 := by
      have hmag : fMag negZero = 0 := by decide
      rw [samplesMag, hmag, secondsMag_zero, magUnits_zero, Nat.zero_mul, roundMag_zero (by positivity)]
    have hcount : countOfMag (roundedMag 0) = 0 := by decide +kernel
    have hms : ms2n negZero fs = 0#32 := by rw [hfs]; exact ms2n_negZero hf
    rw [hzero, hcount, hms]
    rfl

/-- The count of samples grows with the milliseconds, at every sample rate that INIT accepts (R98). -/
theorem ms2n_mono {ms ms' fs : Word} (h0 : fge ms posZero = true) (h : fge ms' ms = true)
    (hfin : isFinite ms' = true) (hfs : fgt fs posZero = true) (hinf : fs ≠ posInf) :
    (ms2n ms fs).toNat ≤ (ms2n ms' fs).toNat := by
  obtain ⟨hle, h0'⟩ := fMag_le_of_fge h0 h
  have hfin : fMag ms' < infMag := of_decide_eq_true hfin
  rw [toNat_ms2n h0 (by omega) hfs hinf, toNat_ms2n h0' hfin hfs hinf]
  exact countOfMag_mono _ _ (roundedMag_mono _ _ (samplesMag_mono _ hle) (roundMag_le _ _)) (roundedMag_le _)

end Sys2Proof.Machine
end

section
/-! What a step leaves unchanged, and the words it takes from the command stream. -/

namespace Sys2Proof.Machine

/-! ### What a step with the power-on reset leaves -/

theorem eq_powerOnAfter_of_step {s t : State} {k : Nat} (hp : s.por = some k) (h : step s = .next t) :
    t = powerOnAfter s k (commandStep s) := by
  rw [step_of_por_some s k hp] at h
  injection h with h
  exact h.symm

/-! ### What a command leaves unchanged

PROC is a loop: what it keeps follows by `procFrames_keeps`. No other command takes a word of the stream. -/

theorem commandEffect_init_cases (nch : Nat) (fs : Word) (s : State) :
    (configRefused s.params.maxch nch fs = true ∧ commandEffect (.init nch fs) s = s.raiseFault .config)
    ∨ (configRefused s.params.maxch nch fs = false ∧ commandEffect (.init nch fs) s = initEffects nch fs s) := by
  cases hr : configRefused s.params.maxch nch fs with
  | true => exact Or.inl ⟨rfl, by simp [commandEffect, hr]⟩
  | false => exact Or.inr ⟨rfl, by simp [commandEffect, hr]⟩

theorem commandEffect_rdreg_cases (a : Nat) (s : State) :
    (∃ w, memRead s a = some w ∧ commandEffect (.rdreg a) s = s.emit [w])
    ∨ (memRead s a = none ∧ commandEffect (.rdreg a) s = s.raiseFault .addr) := by
  unfold commandEffect
  dsimp only
  cases memRead s a with
  | some w => exact Or.inl ⟨w, rfl, rfl⟩
  | none => exact Or.inr ⟨rfl, rfl⟩

/-- The registers that INIT writes once for a session (R25, R26, R28) are the same in both states. -/
def SameSession (s t : State) : Prop :=
  t.nch = s.nch ∧ t.fs = s.fs ∧ t.fadeStart = s.fadeStart ∧ t.fadeEnd = s.fadeEnd ∧ t.fadeLen = s.fadeLen

theorem SameSession.refl (s : State) : SameSession s s := ⟨rfl, rfl, rfl, rfl, rfl⟩

theorem SameSession.trans {s t u : State} (h : SameSession s t) (h' : SameSession t u) : SameSession s u := by
  obtain ⟨hnch, hfs, hstart, hend, hlen⟩ := h
  obtain ⟨hnch', hfs', hstart', hend', hlen'⟩ := h'
  exact ⟨hnch'.trans hnch, hfs'.trans hfs, hstart'.trans hstart, hend'.trans hend, hlen'.trans hlen⟩

theorem frameNext_sameSession (s : State) (xs : List Word) : SameSession s (frameNext s xs) :=
  ⟨frameNext_nch s xs, frameNext_fs s xs, frameNext_fadeStart s xs, frameNext_fadeEnd s xs, frameNext_fadeLen s xs⟩

theorem procFrame_sameSession (s : State) : SameSession s (procFrame s) := by
  obtain ⟨hnch, hfs, hstart, hend, hlen⟩ := frameNext_sameSession s ((s.pending ++ s.input).take s.nch.toNat)
  rw [procFrame_eq]
  exact ⟨hnch, hfs, hstart, hend, hlen⟩

theorem procFrames_sameSession (n : Nat) (s : State) : SameSession s (procFrames n s) :=
  procFrames_keeps (SameSession s) (fun t _ h => h.trans (procFrame_sameSession t)) (fun _ _ h => h) (fun _ _ h => h)
    n s (SameSession.refl s)

theorem discardWord_sameSession (s : State) : SameSession s s.discardWord :=
  ⟨discardWord_nch s, discardWord_fs s, discardWord_fadeStart s, discardWord_fadeEnd s, discardWord_fadeLen s⟩

theorem setSmoother_sameSession (s : State) (p : SmIdx) (sm : Smoother) : SameSession s (s.setSmoother p sm) :=
  ⟨setSmoother_nch s p sm, setSmoother_fs s p sm, setSmoother_fadeStart s p sm, setSmoother_fadeEnd s p sm,
    setSmoother_fadeLen s p sm⟩

/-- INIT alone writes the registers of the session. -/
theorem commandEffect_sameSession (i : Instr) (s : State) (hi : i.opcode ≠ .init) :
    SameSession s (commandEffect i s) := by
  cases i with
  | init nch fs => exact absurd rfl hi
  | reset => exact SameSession.refl s
  | cfg p law target ramp => exact setSmoother_sameSession s p _
  | proc n => exact procFrames_sameSession n s
  | rdreg a =>
    rcases commandEffect_rdreg_cases a s with ⟨w, -, heq⟩ | ⟨-, heq⟩
    · rw [heq]; exact SameSession.refl s
    · rw [heq]; exact SameSession.refl s

theorem commandEffect_params (i : Instr) (s : State) : (commandEffect i s).params = s.params := by
  cases i with
  | init nch fs =>
    rcases commandEffect_init_cases nch fs s with ⟨-, heq⟩ | ⟨-, heq⟩
    · rw [heq, raiseFault_params]
    · rw [heq, initEffects_params]
  | reset => rfl
  | cfg p law target ramp => exact setSmoother_params s p _
  | proc n => exact procFrames_params n s
  | rdreg a =>
    rcases commandEffect_rdreg_cases a s with ⟨w, -, heq⟩ | ⟨-, heq⟩
    · rw [heq, emit_params]
    · rw [heq, raiseFault_params]

/-- No command goes back to `UNINIT`. -/
theorem commandEffect_mode_ne_uninit (i : Instr) (s : State) (hm : s.mode ≠ .uninit) :
    (commandEffect i s).mode ≠ .uninit := by
  cases i with
  | init nch fs =>
    rcases commandEffect_init_cases nch fs s with ⟨-, heq⟩ | ⟨-, heq⟩
    · simp [heq]
    · simp [heq]
  | reset => exact hm
  | cfg p law target ramp => rw [commandEffect, setSmoother_mode]; exact hm
  | proc n => rw [commandEffect, procFrames_mode]; exact hm
  | rdreg a =>
    rcases commandEffect_rdreg_cases a s with ⟨w, -, heq⟩ | ⟨-, heq⟩
    · simpa [heq] using hm
    · simp [heq]

theorem step_params_of_por_none {s t : State} (hp : s.por = none) (h : step s = .next t) : t.params = s.params := by
  refine step_keeps (fun u => u.params = s.params) ?discard ?proc ?fault ?wait ?run s t hp h rfl
  case discard => exact fun u _ hu => (discardWord_params u).trans hu
  case proc => exact fun u _ _ hu => (procFrames_params _ u).trans hu
  case fault => exact fun u code _ _ _ _ hu => hu
  case wait => exact fun u _ _ _ hu => hu
  case run => exact fun u i _ _ _ hu => (commandEffect_params i _).trans hu

/-- Outside `UNINIT` no INIT runs, and no step goes back there. -/
theorem step_sameSession {s t : State} (hp : s.por = none) (hm : s.mode ≠ .uninit) (h : step s = .next t) :
    SameSession s t := by
  have hkept := step_keeps (fun u => u.mode ≠ .uninit ∧ SameSession s u)
    ?discard ?proc ?fault ?wait ?run s t hp h ⟨hm, SameSession.refl s⟩
  case discard =>
    intro u _ ⟨hu, hsame⟩
    exact ⟨by simpa using hu, hsame.trans (discardWord_sameSession u)⟩
  case proc =>
    intro u _ _ ⟨hu, hsame⟩
    exact ⟨by simpa [procFrames_mode] using hu, hsame.trans (procFrames_sameSession _ u)⟩
  case fault => exact fun u code _ _ _ _ ⟨_, hsame⟩ => ⟨by simp, hsame⟩
  case wait => exact fun u _ _ _ hu => hu
  case run =>
    intro u i _ ha _ ⟨hu, hsame⟩
    have hi : i.opcode ≠ .init := by
      intro hi
      rw [hi] at ha
      exact hu (by simpa using allowedIn_cases .init u.mode ha)
    exact ⟨commandEffect_mode_ne_uninit i _ hu, hsame.trans (commandEffect_sameSession i _ hi)⟩
  obtain ⟨-, hsame⟩ := hkept
  exact hsame

/-! ### Words taken from the command stream (R27) -/

/-- Some words left the front of the stream, and the cursor counted them. -/
def TookWords (s t : State) : Prop :=
  ∃ n, n ≤ s.input.length ∧ t.cursor = s.cursor + n ∧ t.input = s.input.drop n

theorem TookWords.of_eq {s t : State} (hc : t.cursor = s.cursor) (hi : t.input = s.input) : TookWords s t :=
  ⟨0, Nat.zero_le _, hc, hi⟩

theorem TookWords.refl (s : State) : TookWords s s := TookWords.of_eq rfl rfl

theorem TookWords.trans {s t u : State} (h : TookWords s t) (h' : TookWords t u) : TookWords s u := by
  obtain ⟨n, hn, hc, hi⟩ := h
  obtain ⟨m, hm, hc', hi'⟩ := h'
  rw [hi, List.length_drop] at hm
  refine ⟨n + m, by omega, by rw [hc', hc, Nat.add_assoc], ?_⟩
  rw [hi', hi, List.drop_drop]

theorem discardWord_tookWords (s : State) : TookWords s s.discardWord := by
  unfold State.discardWord
  split
  · exact TookWords.refl s
  · next w rest heq => exact ⟨1, by simp [heq], rfl, by simp [heq]⟩

theorem takeWords_tookWords {s : State} {n : Nat} (h : n ≤ (s.pending ++ s.input).length) :
    TookWords s (s.takeWords n) := by
  rw [List.length_append] at h
  exact ⟨n - s.pending.length, by omega, rfl, rfl⟩

theorem awaitWords_tookWords (s : State) : TookWords s s.awaitWords :=
  ⟨s.input.length, le_rfl, rfl, by simp⟩

theorem procFrame_tookWords {s : State} (h : s.nch.toNat ≤ (s.pending ++ s.input).length) :
    TookWords s (procFrame s) := by
  rw [procFrame_eq]
  exact takeWords_tookWords h

theorem procFrames_tookWords (n : Nat) (s : State) : TookWords s (procFrames n s) :=
  procFrames_keeps (TookWords s) (fun _ hready h => h.trans (procFrame_tookWords hready))
    (fun t _ h => h.trans (awaitWords_tookWords t)) (fun _ _ h => h) n s (TookWords.refl s)

theorem commandEffect_tookWords (i : Instr) (s : State) : TookWords s (commandEffect i s) := by
  cases i with
  | init nch fs =>
    rcases commandEffect_init_cases nch fs s with ⟨-, heq⟩ | ⟨-, heq⟩
    · rw [heq]; exact TookWords.refl s
    · rw [heq]; exact TookWords.of_eq (initEffects_cursor s nch fs) (initEffects_input s nch fs)
  | reset => exact TookWords.refl s
  | cfg p law target ramp => exact TookWords.of_eq (setSmoother_cursor s p _) (setSmoother_input s p _)
  | proc n => exact procFrames_tookWords n s
  | rdreg a =>
    rcases commandEffect_rdreg_cases a s with ⟨w, -, heq⟩ | ⟨-, heq⟩
    · rw [heq]; exact TookWords.refl s
    · rw [heq]; exact TookWords.refl s

theorem step_tookWords {s t : State} (hp : s.por = none) (h : step s = .next t) : TookWords s t := by
  refine step_keeps (TookWords s) ?discard ?proc ?fault ?wait ?run s t hp h (TookWords.refl s)
  case discard => exact fun u _ hu => hu.trans (discardWord_tookWords u)
  case proc => exact fun u _ _ hu => hu.trans (procFrames_tookWords _ u)
  case fault =>
    intro u code _ _ _ hne hu
    exact hu.trans (takeWords_tookWords (List.length_pos_iff.2 hne))
  case wait => exact fun u _ _ _ hu => hu.trans (awaitWords_tookWords u)
  case run =>
    intro u i _ _ hlen hu
    exact (hu.trans (takeWords_tookWords hlen)).trans (commandEffect_tookWords i _)

end Sys2Proof.Machine
end

section
/-! The two invariants that every step keeps: `State.sound` and the order of the thresholds. -/

namespace Sys2Proof.Machine

/-! ### The invariant, mode by mode -/

/-- The clauses of `State.sound` that hold alike in every mode. -/
def State.registersSound (s : State) : Prop :=
  paramsSound s.params = true
    ∧ s.banks.length = s.params.maxch
    ∧ s.nch.toNat ≤ s.params.maxch
    ∧ banksZeroFrom s.nch.toNat s.banks = true
    ∧ s.silCnt.toNat ≤ s.fadeEnd.toNat
    ∧ s.fadeLen = s.fadeEnd - s.fadeStart

/-- In `UNINIT` every register but the cursor holds its power-on value (R39). -/
def State.untouched (s : State) : Prop :=
  s.nch = 0#32 ∧ s.fs = 0#32 ∧ s.fadeStart = 0#32 ∧ s.fadeEnd = 0#32 ∧ s.fadeLen = 0#32 ∧ s.silCnt = 0#32
    ∧ s.gain = Smoother.powerOn s.params.gDefault .log ∧ s.dist = Smoother.powerOn s.params.dDefault .lin
    ∧ s.procLeft = 0

/-- What INIT accepts (R25, R26). -/
def State.accepted (s : State) : Prop := 1 ≤ s.nch.toNat ∧ fgt s.fs posZero = true ∧ s.fs ≠ posInf

theorem sound_iff_of_uninit {s : State} (hm : s.mode = .uninit) :
    s.sound ↔ s.registersSound ∧ s.err = .none ∧ s.untouched ∧ progressSound s = true := by
  have herr : errAgrees s = true ↔ s.err = .none := by unfold errAgrees; rw [hm]; cases s.err <;> simp
  simp only [State.sound, State.registersSound, herr, uninitUntouched, readyAccepted, hm, State.untouched]
  simp [and_assoc]

theorem sound_iff_of_ready {s : State} (hm : s.mode = .ready) :
    s.sound ↔ s.registersSound ∧ s.err = .none ∧ s.accepted ∧ progressSound s = true := by
  have herr : errAgrees s = true ↔ s.err = .none := by unfold errAgrees; rw [hm]; cases s.err <;> simp
  simp only [State.sound, State.registersSound, herr, uninitUntouched, readyAccepted, hm, State.accepted]
  simp [and_assoc]

theorem sound_iff_of_fault {s : State} (hm : s.mode = .fault) :
    s.sound ↔ s.registersSound ∧ s.err ≠ .none ∧ progressSound s = true := by
  have herr : errAgrees s = true ↔ s.err ≠ .none := by unfold errAgrees; rw [hm]; cases s.err <;> simp
  simp only [State.sound, State.registersSound, herr, uninitUntouched, readyAccepted, hm]
  simp [and_assoc]

theorem State.sound.registersSound {s : State} (h : s.sound) : s.registersSound := by
  obtain ⟨hparams, hsize, hnch, hzero, hsil, hlen, -⟩ := h
  exact ⟨hparams, hsize, hnch, hzero, hsil, hlen⟩

theorem State.sound.progressSound {s : State} (h : s.sound) : progressSound s = true := by
  obtain ⟨-, -, -, -, -, -, -, -, -, hprogress⟩ := h
  exact hprogress

/-- Between commands and while operands are awaited at most two words are held. -/
theorem progressSound_iff_of_idle {s : State} (hl : s.procLeft = 0) :
    progressSound s = true ↔ s.pending.length ≤ 2 := by simp [progressSound, hl]

/-- A PROC in progress waits in `READY` for the rest of a frame. -/
theorem progressSound_iff_of_progress {s : State} (hl : s.procLeft ≠ 0) :
    progressSound s = true ↔ s.mode = .ready ∧ s.pending.length < s.nch.toNat := by simp [progressSound, hl]

/-- The words held play a part in one clause only. -/
theorem State.sound.setPending {s : State} (h : s.sound) (hl : s.procLeft = 0) (ws : List Word) (hws : ws.length ≤ 2) :
    State.sound { s with pending := ws } := by
  obtain ⟨hparams, hsize, hnch, hzero, hsil, hlen, herr, huninit, hready, -⟩ := h
  exact ⟨hparams, hsize, hnch, hzero, hsil, hlen, herr, huninit, hready,
    (progressSound_iff_of_idle (s := { s with pending := ws }) hl).2 hws⟩

/-! ### What each part of a step makes of the invariant

The cursor and the two streams stand in no clause, so a state that differs in them alone is sound by the same proof. -/

theorem powerOn_sound {p : Params} (hp : paramsSound p = true) : (State.powerOn p).sound := by
  rw [sound_iff_of_uninit rfl, progressSound_iff_of_idle rfl]
  have hlen : (0#32 : Word) = 0#32 - 0#32 := by decide
  exact ⟨⟨hp, List.length_replicate, Nat.zero_le _, banksZeroFrom_replicate _ _, le_rfl, hlen⟩, rfl,
    ⟨rfl, rfl, rfl, rfl, rfl, rfl, rfl, rfl, rfl⟩, Nat.zero_le _⟩

theorem discardWord_sound {s : State} (h : s.sound) : s.discardWord.sound := by
  unfold State.discardWord
  split <;> exact h

theorem takeWords_sound {s : State} (h : s.sound) (hl : s.procLeft = 0) (n : Nat) : (s.takeWords n).sound :=
  h.setPending hl [] (Nat.zero_le _)

theorem awaitWords_sound {s : State} (h : s.sound) (hl : s.procLeft = 0) (hlen : (s.pending ++ s.input).length ≤ 2) :
    s.awaitWords.sound :=
  h.setPending hl (s.pending ++ s.input) hlen

theorem raiseFault_sound {s : State} (h : s.sound) (hl : s.procLeft = 0) {code : FaultCode} (hc : code ≠ .none) :
    (s.raiseFault code).sound := by
  have hheld : s.pending.length ≤ 2 := (progressSound_iff_of_idle hl).1 h.progressSound
  rw [sound_iff_of_fault rfl]
  exact ⟨h.registersSound, hc, (progressSound_iff_of_idle (s := s.raiseFault code) hl).2 hheld⟩

/-- A frame moves the cascades of its own channels only, and the silence counter at most to its bound. -/
theorem frameNext_registersSound {s : State} {xs : List Word} (h : s.registersSound) (hxs : xs.length ≤ s.nch.toNat) :
    (frameNext s xs).registersSound := by
  obtain ⟨hparams, hsize, hnch, hzero, hsil, hlen⟩ := h
  have hunused : ∀ c, s.nch.toNat ≤ c → bankAfter s xs c Bank.zero = Bank.zero := by
    intro c hc
    rw [bankAfter, List.getElem?_eq_none (by omega)]
  refine ⟨by simpa using hparams, ?size, by simpa using hnch, ?zero, ?sil, by simpa using hlen⟩
  case size =>
    rw [frameNext_banks, frameNext_params]
    split
    · rw [List.length_mapIdx]; exact hsize
    · exact hsize
  case zero =>
    rw [frameNext_banks, frameNext_nch]
    split
    · exact banksZeroFrom_mapIdx _ _ _ hzero hunused
    · exact hzero
  case sil =>
    rw [frameNext_fadeEnd]
    cases hquiet : frameSilent xs with
    | true => rw [frameNext_silCnt_of_silent s xs hquiet]; exact min_le_right _ _
    | false => rw [frameNext_silCnt_of_not_silent s xs hquiet]; exact Nat.zero_le _

theorem procFrame_registersSound {s : State} (h : s.registersSound) : (procFrame s).registersSound := by
  obtain ⟨hparams, hsize, hnch, hzero, hsil, hlen⟩ :=
    frameNext_registersSound (xs := (s.pending ++ s.input).take s.nch.toNat) h (List.length_take_le _ _)
  rw [procFrame_eq]
  exact ⟨hparams, hsize, hnch, hzero, hsil, hlen⟩

theorem procFrames_registersSound (n : Nat) {s : State} (h : s.registersSound) : (procFrames n s).registersSound :=
  procFrames_keeps State.registersSound (fun _ _ ht => procFrame_registersSound ht) (fun _ _ ht => ht)
    (fun _ _ ht => ht) n s h

/-- PROC ends with no word held, or waits for the rest of a frame. A PROC of no frame must find none held. -/
theorem procFrames_progressSound (n : Nat) (s : State) (hm : s.mode = .ready) (hn : n = 0 → s.pending = []) :
    progressSound (procFrames n s) = true := by
  induction n generalizing s with
  | zero =>
    rw [procFrames_zero, progressSound_iff_of_idle rfl, hn rfl]
    exact Nat.zero_le _
  | succ k ih =>
    rcases Nat.lt_or_ge (s.pending ++ s.input).length s.nch.toNat with hstarved | hready
    · rw [procFrames_starved k s hstarved, progressSound_iff_of_progress (Nat.succ_ne_zero k)]
      exact ⟨hm, hstarved⟩
    · rw [procFrames_ready k s hready]
      refine ih (procFrame s) ?_ fun _ => ?_
      · rw [procFrame_eq]; simpa using hm
      · rw [procFrame_eq]

theorem procFrames_sound (n : Nat) {s : State} (h : s.sound) (hm : s.mode = .ready) (hn : n = 0 → s.pending = []) :
    (procFrames n s).sound := by
  obtain ⟨hregs, herr, haccepted, -⟩ := (sound_iff_of_ready hm).1 h
  obtain ⟨hnch, hfs, -⟩ := procFrames_sameSession n s
  rw [sound_iff_of_ready (by rw [procFrames_mode, hm]), procFrames_err, State.accepted, hnch, hfs]
  exact ⟨procFrames_registersSound n hregs, herr, haccepted, procFrames_progressSound n s hm hn⟩

theorem resetBanks_registersSound {s : State} (h : s.registersSound) : (resetBanks s).registersSound := by
  obtain ⟨hparams, hsize, hnch, hzero, hsil, hlen⟩ := h
  refine ⟨hparams, ?size, hnch, ?zero, hsil, hlen⟩
  case size => rw [resetBanks_banks, List.length_mapIdx]; exact hsize
  case zero =>
    refine banksZeroFrom_mapIdx _ _ _ hzero fun c hc => ?_
    exact if_neg (Nat.not_lt.2 hc)

theorem resetEffects_registersSound {s : State} (h : s.registersSound) : (resetEffects s).registersSound := by
  obtain ⟨hparams, hsize, hnch, hzero, -, hlen⟩ := resetBanks_registersSound h
  exact ⟨hparams, hsize, hnch, hzero, le_rfl, hlen⟩

theorem resetEffects_sound {s : State} (h : s.sound) (hm : s.mode = .ready) : (resetEffects s).sound := by
  obtain ⟨hregs, herr, haccepted, hprogress⟩ := (sound_iff_of_ready hm).1 h
  exact (sound_iff_of_ready (s := resetEffects s) hm).2 ⟨resetEffects_registersSound hregs, herr, haccepted, hprogress⟩

/-- The smoothers stand in the clause of `UNINIT` alone. -/
theorem setSmoother_sound {s : State} (h : s.sound) (hm : s.mode = .ready) (p : SmIdx) (sm : Smoother) :
    (s.setSmoother p sm).sound := by
  obtain ⟨hregs, herr, haccepted, hprogress⟩ := (sound_iff_of_ready hm).1 h
  rw [sound_iff_of_ready (by rw [setSmoother_mode, hm])]
  cases p <;> exact ⟨hregs, herr, haccepted, hprogress⟩

theorem configRefused_false_iff (maxch nch : Nat) (fs : Word) :
    configRefused maxch nch fs = false ↔ nch ≠ 0 ∧ nch ≤ maxch ∧ fgt fs posZero = true ∧ fs ≠ posInf := by
  simp [configRefused, and_assoc]

theorem paramsSound_iff (p : Params) :
    paramsSound p = true
      ↔ 1 ≤ p.maxch ∧ p.maxch ≤ 1024 ∧ p.coef.length = p.maxch
        ∧ fge p.fadeStartMs posZero = true ∧ fge p.fadeEndMs p.fadeStartMs = true ∧ isFinite p.fadeEndMs = true := by
  simp [paramsSound, and_assoc]

theorem banksZeroFrom_mono {n m : Nat} {bs : List Bank} (hnm : n ≤ m) (h : banksZeroFrom n bs = true) :
    banksZeroFrom m bs = true :=
  (banksZeroFrom_iff m bs).2 fun c b hc => (banksZeroFrom_iff n bs).1 h c b (hnm.trans hc)

/-- A channel count that INIT accepts fits the register `NCH`, as `MAXCH` does (R7). -/
theorem toNat_ofNat_channels {p : Params} {nch : Nat} (hp : paramsSound p = true) (hle : nch ≤ p.maxch) :
    (BitVec.ofNat 32 nch).toNat = nch := by
  obtain ⟨-, hmax, -⟩ := (paramsSound_iff p).1 hp
  rw [BitVec.toNat_ofNat, Nat.mod_eq_of_lt (by omega)]

/-- Before INIT every cascade is at zero, so those that the new session does not use are (R50, R91). -/
theorem initEffects_registersSound {s : State} (h : s.registersSound) (hnch : s.nch = 0#32) {nch : Nat} (fs : Word)
    (hle : nch ≤ s.params.maxch) : (initEffects nch fs s).registersSound := by
  obtain ⟨hparams, hsize, -, hzero, -, -⟩ := h
  have hfits := toNat_ofNat_channels hparams hle
  rw [hnch] at hzero
  refine ⟨by simpa using hparams, ?size, ?channels, ?zero, by simp, by simp⟩
  case size => rw [initEffects_banks, List.length_mapIdx, initEffects_params]; exact hsize
  case channels => rw [initEffects_nch, hfits, initEffects_params]; exact hle
  case zero =>
    rw [initEffects_banks, initEffects_nch]
    refine banksZeroFrom_mapIdx _ _ _ (banksZeroFrom_mono (Nat.zero_le _) hzero) fun c hc => ?_
    exact if_neg (Nat.not_lt.2 hc)

theorem initEffects_sound {s : State} (h : s.sound) (hm : s.mode = .uninit) {nch : Nat} {fs : Word}
    (hok : configRefused s.params.maxch nch fs = false) : (initEffects nch fs s).sound := by
  obtain ⟨hregs, herr, ⟨hnch, -, -, -, -, -, -, -, hl⟩, hprogress⟩ := (sound_iff_of_uninit hm).1 h
  obtain ⟨hne, hle, hpos, hfin⟩ := (configRefused_false_iff _ _ _).1 hok
  have hregs' := initEffects_registersSound hregs hnch fs hle
  obtain ⟨hparams, -⟩ := hregs
  have hfits := toNat_ofNat_channels hparams hle
  rw [sound_iff_of_ready (initEffects_mode s nch fs), initEffects_err, State.accepted, initEffects_nch, initEffects_fs,
    hfits, progressSound_iff_of_idle (by rw [initEffects_procLeft, hl]), initEffects_pending]
  exact ⟨hregs', herr, ⟨Nat.one_le_iff_ne_zero.2 hne, hpos, hfin⟩, (progressSound_iff_of_idle hl).1 hprogress⟩

/-- A command that its mode allows keeps the invariant, from a state that holds no word. -/
theorem commandEffect_sound {i : Instr} {s : State} (h : s.sound) (hl : s.procLeft = 0) (hheld : s.pending = [])
    (ha : allowedIn i.opcode s.mode = true) : (commandEffect i s).sound := by
  have hallowed := allowedIn_cases i.opcode s.mode ha
  cases i with
  | init nch fs =>
    have hm : s.mode = .uninit := by simpa [Instr.opcode] using hallowed
    rcases commandEffect_init_cases nch fs s with ⟨-, heq⟩ | ⟨hok, heq⟩
    · rw [heq]; exact raiseFault_sound h hl (by decide)
    · rw [heq]; exact initEffects_sound h hm hok
  | reset =>
    have hm : s.mode = .ready := by simpa [Instr.opcode] using hallowed
    exact resetEffects_sound h hm
  | cfg p law target ramp =>
    have hm : s.mode = .ready := by simpa [Instr.opcode] using hallowed
    exact setSmoother_sound h hm p _
  | proc n =>
    have hm : s.mode = .ready := by simpa [Instr.opcode] using hallowed
    exact procFrames_sound n h hm fun _ => hheld
  | rdreg a =>
    rcases commandEffect_rdreg_cases a s with ⟨w, -, heq⟩ | ⟨-, heq⟩
    · rw [heq]; exact h
    · rw [heq]; exact raiseFault_sound h hl (by decide)

theorem step_sound_of_por_none {s t : State} (hp : s.por = none) (h : step s = .next t) (hs : s.sound) : t.sound := by
  refine step_keeps State.sound ?discard ?proc ?fault ?wait ?run s t hp h hs
  case discard => exact fun u _ hu => discardWord_sound hu
  case proc =>
    intro u _ hl hu
    obtain ⟨hm, -⟩ := (progressSound_iff_of_progress hl).1 hu.progressSound
    exact procFrames_sound _ hu hm fun h0 => absurd h0 hl
  case fault => exact fun u code hl _ hc _ hu => raiseFault_sound (takeWords_sound hu hl 1) hl hc
  case wait => exact fun u hl _ hlen hu => awaitWords_sound hu hl hlen
  case run => exact fun u i hl ha _ hu => commandEffect_sound (takeWords_sound hu hl _) hl rfl ha

/-! ### The thresholds (R28) -/

theorem SameSession.thresholdsOrdered {s t : State} (h : SameSession s t) (hs : s.thresholdsOrdered) :
    t.thresholdsOrdered := by
  obtain ⟨-, -, hstart, hend, -⟩ := h
  rw [State.thresholdsOrdered, hstart, hend]
  exact hs

theorem initEffects_thresholdsOrdered {s : State} {nch : Nat} {fs : Word} (hparams : paramsSound s.params = true)
    (hok : configRefused s.params.maxch nch fs = false) : (initEffects nch fs s).thresholdsOrdered := by
  obtain ⟨-, -, -, hstart, hend, hfin⟩ := (paramsSound_iff s.params).1 hparams
  obtain ⟨-, -, hpos, hinf⟩ := (configRefused_false_iff _ _ _).1 hok
  rw [State.thresholdsOrdered, initEffects_fadeStart, initEffects_fadeEnd]
  exact ms2n_mono hstart hend hfin hpos hinf

theorem commandEffect_thresholdsOrdered {i : Instr} {s : State} (hparams : paramsSound s.params = true)
    (hs : s.thresholdsOrdered) : (commandEffect i s).thresholdsOrdered := by
  by_cases hi : i.opcode = .init
  · cases i with
    | init nch fs =>
      rcases commandEffect_init_cases nch fs s with ⟨-, heq⟩ | ⟨hok, heq⟩
      · rw [heq]; exact hs
      · rw [heq]; exact initEffects_thresholdsOrdered hparams hok
    | _ => cases hi
  · exact (commandEffect_sameSession i s hi).thresholdsOrdered hs

theorem step_thresholdsOrdered_of_por_none {s t : State} (hp : s.por = none) (h : step s = .next t)
    (hparams : paramsSound s.params = true) (hs : s.thresholdsOrdered) : t.thresholdsOrdered := by
  have hkept := step_keeps (fun u => paramsSound u.params = true ∧ u.thresholdsOrdered)
    ?discard ?proc ?fault ?wait ?run s t hp h ⟨hparams, hs⟩
  case discard =>
    intro u _ ⟨hu, ho⟩
    exact ⟨by simpa using hu, (discardWord_sameSession u).thresholdsOrdered ho⟩
  case proc =>
    intro u _ _ ⟨hu, ho⟩
    exact ⟨by simpa [procFrames_params] using hu, (procFrames_sameSession _ u).thresholdsOrdered ho⟩
  case fault => exact fun u code _ _ _ _ hu => hu
  case wait => exact fun u _ _ _ hu => hu
  case run =>
    intro u i _ _ _ ⟨hu, ho⟩
    exact ⟨by simpa [commandEffect_params] using hu, commandEffect_thresholdsOrdered hu ho⟩
  obtain ⟨-, ho⟩ := hkept
  exact ho

end Sys2Proof.Machine
end

section
/-! The statements about the state (10_state.md). -/

namespace Sys2Proof.Machine

/-! ### The power-on state (R39) -/

theorem powerOn_bank (p : Params) (c : Nat) : (State.powerOn p).bank c = Bank.zero := by
  simp only [State.bank, State.powerOn, List.getD_eq_getElem?_getD, List.getElem?_replicate]
  split <;> rfl

theorem bankStage_zero (st : Nat) : bankStage Bank.zero st = Stage.zero := by
  unfold bankStage
  split <;> rfl

theorem paramsSound_config : paramsSound Config.params = true := by
  have hcode : Config.maxchCode.toNat < 1024 := Config.maxchCode.isLt
  refine (paramsSound_iff _).2 ⟨Nat.le_add_left _ _, hcode, ?_, by decide, by decide, by decide⟩
  simp [Config.params]

/-! ### The statements -/

/-- Settles O1: the table of R39, field by field; every cascade is one of the `MAXCH` copies of the zero state. -/
theorem powerOnResetValues : Obligations.PowerOnResetValues := by
  refine ⟨fun p => ⟨rfl, rfl, rfl, rfl, rfl, rfl, rfl, rfl, rfl, rfl, rfl, List.length_replicate, ?_, rfl⟩, rfl, rfl, rfl⟩
  intro c _ st _
  rw [powerOn_bank, bankStage_zero]
  rfl

/-- Settles O2: the constants of this hardware obey R7 to R9, whatever the open `MAXCH` and `COEF`. -/
theorem resetStateIsSound : Obligations.ResetStateIsSound :=
  ⟨powerOn_sound paramsSound_config, le_rfl, rfl, rfl⟩

/-- Settles O3: the power-on reset starts a sound state, and each thing that another step can do keeps the invariant. -/
theorem stepKeepsStateSound : Obligations.StepKeepsStateSound := by
  intro s t hs h
  cases hp : s.por with
  | none => exact step_sound_of_por_none hp h hs
  | some k =>
    obtain ⟨hparams, -⟩ := hs
    rw [eq_powerOnAfter_of_step hp h]
    exact powerOn_sound hparams

/-- Settles O4: INIT alone writes the thresholds, and the count of samples is monotone in the milliseconds. -/
theorem stepKeepsThresholdsOrdered : Obligations.StepKeepsThresholdsOrdered := by
  intro s t hparams hs h
  cases hp : s.por with
  | none => exact step_thresholdsOrdered_of_por_none hp h hparams hs
  | some k =>
    rw [eq_powerOnAfter_of_step hp h]
    exact le_rfl

/-- Settles O12: the cursor's gain is the number of words that left the front of the stream. -/
theorem cursorCountsWordsTaken : Obligations.CursorCountsWordsTaken := by
  intro s t hp h
  obtain ⟨n, hn, hc, hi⟩ := step_tookWords hp h
  have hgain : t.cursor - s.cursor = n := by omega
  refine ⟨by omega, ?_, ?_⟩
  · rw [hc, hi, List.length_drop]; omega
  · rw [hgain, hi]

/-- Settles O26: outside `UNINIT` no INIT runs, and nothing else writes the registers of the session. -/
theorem sessionIsFixedByInit : Obligations.SessionIsFixedByInit :=
  fun _ _ hp hm h => step_sameSession hp hm h

/-- Settles O27: no part of a step writes the constants, and the power-on reset takes over those it finds. -/
theorem constantsNeverChange : Obligations.ConstantsNeverChange := by
  intro s t h
  cases hp : s.por with
  | none => exact step_params_of_por_none hp h
  | some k => rw [eq_powerOnAfter_of_step hp h, powerOnAfter_params]

end Sys2Proof.Machine
end

section
/-! The facts about the two streams (20_memory.md section 2): their byte layout, and the response stream, to which a
step only adds. -/

namespace Sys2Proof.Machine

/-! ### The byte layout of a stream (R43) -/

/-- A word is the sum of its four bytes, each at its place. -/
theorem ofNat_bytes_eq (w : Word) :
    BitVec.ofNat 32
        ((BitVec.ofNat 8 w.toNat).toNat + (BitVec.ofNat 8 (w.toNat / 2 ^ 8)).toNat * 2 ^ 8
          + (BitVec.ofNat 8 (w.toNat / 2 ^ 16)).toNat * 2 ^ 16
          + (BitVec.ofNat 8 (w.toNat / 2 ^ 24)).toNat * 2 ^ 24) = w := by
  have hw := w.isLt
  apply BitVec.eq_of_toNat_eq
  simp only [BitVec.toNat_ofNat]
  omega

theorem streamWords_wordBytes_append (w : Word) (bs : List Byte) :
    streamWords (wordBytes w ++ bs) = w :: streamWords bs :=
  congrArg (· :: streamWords bs) (ofNat_bytes_eq w)

theorem length_wordBytes (w : Word) : (wordBytes w).length = 4 := rfl

theorem getElem?_wordBytes (w : Word) {b : Nat} (hb : b < 4) :
    (wordBytes w)[b]? = some (BitVec.ofNat 8 (w.toNat / 2 ^ (8 * b))) := by
  unfold wordBytes
  interval_cases b <;> simp

theorem streamWords_streamBytes (ws : List Word) : streamWords (streamBytes ws) = ws := by
  induction ws with
  | nil => rfl
  | cons w rest ih => rw [streamBytes, streamWords_wordBytes_append, ih]

theorem length_streamBytes (ws : List Word) : (streamBytes ws).length = 4 * ws.length := by
  induction ws with
  | nil => rfl
  | cons w rest ih => rw [streamBytes, List.length_append, length_wordBytes, ih, List.length_cons]; omega

/-- The words before word `k` fill `4 * k` bytes. -/
theorem getElem?_streamBytes (ws : List Word) (k : Nat) {b : Nat} (hb : b < 4) :
    (streamBytes ws)[4 * k + b]? = (ws[k]?).map fun w => BitVec.ofNat 8 (w.toNat / 2 ^ (8 * b)) := by
  induction ws generalizing k with
  | nil => rfl
  | cons w rest ih =>
    rw [streamBytes]
    cases k with
    | zero =>
      rw [List.getElem?_append_left (by rw [length_wordBytes]; omega), Nat.mul_zero, Nat.zero_add,
        getElem?_wordBytes w hb]
      rfl
    | succ k =>
      rw [List.getElem?_append_right (by rw [length_wordBytes]; omega), length_wordBytes,
        show 4 * (k + 1) + b - 4 = 4 * k + b by omega, ih k, List.getElem?_cons_succ]

/-! ### The response stream (R54 (d), R139)

A frame of PROC and a mapped RDREG add to it; everything else leaves it as it was. -/

/-- The responses of `t` are those of `s` with some words added at the end. -/
def AddsResponses (s t : State) : Prop := ∃ ws, t.output = s.output ++ ws

theorem AddsResponses.of_eq {s t : State} (h : t.output = s.output) : AddsResponses s t :=
  ⟨[], by rw [h, List.append_nil]⟩

theorem AddsResponses.refl (s : State) : AddsResponses s s := AddsResponses.of_eq rfl

theorem AddsResponses.trans {s t u : State} (h : AddsResponses s t) (h' : AddsResponses t u) : AddsResponses s u := by
  obtain ⟨ws, hws⟩ := h
  obtain ⟨ws', hws'⟩ := h'
  exact ⟨ws ++ ws', by rw [hws', hws, List.append_assoc]⟩

theorem emit_addsResponses (s : State) (ws : List Word) : AddsResponses s (s.emit ws) := ⟨ws, emit_output s ws⟩

theorem procFrame_addsResponses (s : State) : AddsResponses s (procFrame s) := ⟨_, by rw [procFrame_eq]⟩

theorem procFrames_addsResponses (n : Nat) (s : State) : AddsResponses s (procFrames n s) :=
  procFrames_keeps (AddsResponses s) (fun t _ h => h.trans (procFrame_addsResponses t)) (fun _ _ h => h)
    (fun _ _ h => h) n s (AddsResponses.refl s)

theorem commandEffect_addsResponses (i : Instr) (s : State) : AddsResponses s (commandEffect i s) := by
  cases i with
  | init nch fs =>
    rcases commandEffect_init_cases nch fs s with ⟨-, heq⟩ | ⟨-, heq⟩
    · rw [heq]; exact AddsResponses.refl s
    · rw [heq]; exact AddsResponses.of_eq (initEffects_output s nch fs)
  | reset => exact AddsResponses.refl s
  | cfg p law target ramp => exact AddsResponses.of_eq (setSmoother_output s p _)
  | proc n => exact procFrames_addsResponses n s
  | rdreg a =>
    rcases commandEffect_rdreg_cases a s with ⟨w, -, heq⟩ | ⟨-, heq⟩
    · rw [heq]; exact emit_addsResponses s [w]
    · rw [heq]; exact AddsResponses.refl s

theorem step_addsResponses_of_por_none {s t : State} (hp : s.por = none) (h : step s = .next t) :
    AddsResponses s t := by
  refine step_keeps (AddsResponses s) ?discard ?proc ?fault ?wait ?run s t hp h (AddsResponses.refl s)
  case discard => exact fun u _ hu => hu.trans (AddsResponses.of_eq (discardWord_output u))
  case proc => exact fun u _ _ hu => hu.trans (procFrames_addsResponses _ u)
  case fault => exact fun u code _ _ _ _ hu => hu
  case wait => exact fun u _ _ _ hu => hu
  case run => exact fun u i _ _ _ hu => hu.trans (commandEffect_addsResponses i (u.takeWords _))

end Sys2Proof.Machine
end

section
/-! The facts about the register space (20_memory.md section 3): the region each address lies in, what the registers
of a region read, and what RDREG makes of it. -/

namespace Sys2Proof.Machine

/-! ### The regions of the map

Each region reads the registers of one kind, by the offset from its first address. -/

theorem memRead_of_control (s : State) {a : Nat} (ha : a < 0x10) : memRead s a = controlReg s a := by
  unfold memRead
  rw [if_pos ha]

/-- Smoother `p` has the eight addresses from `0x10 + 8 * p` on (R49). -/
theorem memRead_of_smoother (s : State) (p : SmIdx) {k : Nat} (hk : k < 8) :
    memRead s (0x10 + 8 * smIdxBit p + k) = smootherReg (s.smoother p) k := by
  unfold memRead
  cases p with
  | gain =>
    rw [show 0x10 + 8 * smIdxBit .gain + k = 0x10 + k from rfl, if_neg (by omega), if_pos (by omega),
      Nat.add_sub_cancel_left]
    rfl
  | dist =>
    rw [show 0x10 + 8 * smIdxBit .dist + k = 0x18 + k from rfl, if_neg (by omega), if_neg (by omega),
      if_pos (by omega), Nat.add_sub_cancel_left]
    rfl

theorem memRead_of_gap (s : State) {a : Nat} (hlo : 0x20 ≤ a) (hhi : a < 0x1000) : memRead s a = none := by
  unfold memRead
  rw [if_neg (by omega), if_neg (by omega), if_neg (by omega), if_pos hhi]

theorem memRead_of_filter (s : State) {off : Nat} (h : off < 0x7000) : memRead s (0x1000 + off) = filterReg s off := by
  unfold memRead
  rw [if_neg (by omega), if_neg (by omega), if_neg (by omega), if_neg (by omega), if_pos (by omega),
    Nat.add_sub_cancel_left]

theorem memRead_of_coef (s : State) {off : Nat} (h : off < 0x8000) : memRead s (0x8000 + off) = coefRegAt s off := by
  unfold memRead
  rw [if_neg (by omega), if_neg (by omega), if_neg (by omega), if_neg (by omega), if_neg (by omega),
    if_pos (by omega), Nat.add_sub_cancel_left]

/-! ### The registers of one channel (R50, R51) -/

/-- The eight registers of channel `c`: two for each of its four stages. -/
theorem memRead_channel {s : State} {c r : Nat} (hmax : s.params.maxch ≤ 1024) (hc : c < s.params.maxch) (hr : r < 8) :
    memRead s (0x1000 + 8 * c + r) = some (stageReg (bankStage (s.bank c) (r / 2)) (r % 2)) := by
  rw [Nat.add_assoc, memRead_of_filter s (by omega), filterReg, show (8 * c + r) / 8 = c by omega, if_pos hc,
    show (8 * c + r) % 8 = r by omega, show (8 * c + r) % 2 = r % 2 by omega]

theorem memRead_stage {s : State} {c st k : Nat} (hmax : s.params.maxch ≤ 1024) (hc : c < s.params.maxch)
    (hst : st < 4) (hk : k < 2) :
    memRead s (0x1000 + 8 * c + 2 * st + k) = some (stageReg (bankStage (s.bank c) st) k) := by
  rw [Nat.add_assoc _ (2 * st) k, memRead_channel hmax hc (by omega), show (2 * st + k) / 2 = st by omega,
    show (2 * st + k) % 2 = k by omega]

/-- The eight addresses of a stage's constants, the last three of them unmapped. -/
theorem memRead_stageCoef {s : State} {c st j : Nat} (hmax : s.params.maxch ≤ 1024) (hc : c < s.params.maxch)
    (hst : st < 4) (hj : j < 8) :
    memRead s (0x8000 + 32 * c + 8 * st + j) = coefReg (bankStageCoef (s.bankCoef c) st) j := by
  rw [Nat.add_assoc _ (8 * st) j, Nat.add_assoc _ (32 * c), memRead_of_coef s (by omega), coefRegAt,
    show (32 * c + (8 * st + j)) / 32 = c by omega, if_pos hc,
    show (32 * c + (8 * st + j)) % 32 / 8 = st by omega, show (32 * c + (8 * st + j)) % 8 = j by omega]

/-! ### The channels that a session does not use (R50, R91) -/

theorem stageReg_zero (k : Nat) : stageReg Stage.zero k = 0#32 := by
  unfold stageReg
  split <;> rfl

theorem State.sound.maxch_le {s : State} (h : s.sound) : s.params.maxch ≤ 1024 := by
  obtain ⟨hparams, -⟩ := h
  obtain ⟨-, hmax, -⟩ := (paramsSound_iff _).1 hparams
  exact hmax

theorem State.sound.bank_eq_zero {s : State} (h : s.sound) {c : Nat} (hc : s.nch.toNat ≤ c) : s.bank c = Bank.zero := by
  obtain ⟨-, -, -, hzero, -⟩ := h
  rw [State.bank, List.getD_eq_getElem?_getD]
  cases hb : s.banks[c]? with
  | none => rfl
  | some b => exact (banksZeroFrom_iff _ _).1 hzero c b hc hb

theorem memRead_unusedChannel {s : State} (h : s.sound) {c r : Nat} (hunused : s.nch.toNat ≤ c)
    (hc : c < s.params.maxch) (hr : r < 8) : memRead s (0x1000 + 8 * c + r) = some 0#32 := by
  rw [memRead_channel h.maxch_le hc hr, h.bank_eq_zero hunused, bankStage_zero, stageReg_zero]

/-! ### The unmapped addresses (R52), region by region -/

theorem controlReg_eq_none_iff (s : State) (a : Nat) : controlReg s a = none ↔ 7 ≤ a := by
  match a with
  | 0 | 1 | 2 | 3 | 4 | 5 | 6 => simp [controlReg]
  | i + 7 => simp [controlReg]

theorem smootherReg_eq_none_iff (sm : Smoother) (k : Nat) : smootherReg sm k = none ↔ 5 ≤ k := by
  match k with
  | 0 | 1 | 2 | 3 | 4 => simp [smootherReg]
  | i + 5 => simp [smootherReg]

theorem coefReg_eq_none_iff (k : Coef) (j : Nat) : coefReg k j = none ↔ 5 ≤ j := by
  match j with
  | 0 | 1 | 2 | 3 | 4 => simp [coefReg]
  | i + 5 => simp [coefReg]

theorem filterReg_eq_none_iff (s : State) (off : Nat) : filterReg s off = none ↔ 8 * s.params.maxch ≤ off := by
  unfold filterReg
  split
  · next h => simp only [reduceCtorEq, false_iff]; omega
  · next h => simp only [true_iff]; omega

theorem coefRegAt_eq_none_iff (s : State) (off : Nat) :
    coefRegAt s off = none ↔ 32 * s.params.maxch ≤ off ∨ 5 ≤ off % 8 := by
  unfold coefRegAt
  split
  · next h => rw [coefReg_eq_none_iff]; omega
  · next h => simp only [true_iff]; omega

/-- Both smoothers have their three unmapped addresses at the end of their eight. -/
theorem memRead_smoothers_eq_none_iff (s : State) {off : Nat} (h : off < 16) :
    memRead s (0x10 + off) = none ↔ 5 ≤ off % 8 := by
  obtain ⟨p, hp⟩ : ∃ p, off = 8 * smIdxBit p + off % 8 := by
    rcases Nat.lt_or_ge off 8 with hlo | hhi
    · exact ⟨.gain, by rw [smIdxBit]; omega⟩
    · exact ⟨.dist, by rw [smIdxBit]; omega⟩
  rw [hp, ← Nat.add_assoc, memRead_of_smoother s p (Nat.mod_lt _ (by decide)), smootherReg_eq_none_iff, ← hp]

/-- The bound on `MAXCH` keeps the two arrays inside their regions. -/
theorem memRead_eq_none_iff {s : State} {a : Nat} (hmax : s.params.maxch ≤ 1024) (ha : a ≤ 0xFFFF) :
    memRead s a = none ↔ unmappedAddr s.params.maxch a := by
  unfold unmappedAddr
  rcases Nat.lt_or_ge a 0x10 with hcontrol | h10
  · rw [memRead_of_control s hcontrol, controlReg_eq_none_iff]; omega
  rcases Nat.lt_or_ge a 0x20 with hsmoother | h20
  · obtain ⟨off, rfl⟩ := Nat.exists_eq_add_of_le h10
    rw [memRead_smoothers_eq_none_iff s (by omega)]; omega
  rcases Nat.lt_or_ge a 0x1000 with hgap | h1000
  · rw [memRead_of_gap s h20 hgap]; simp only [true_iff]; omega
  rcases Nat.lt_or_ge a 0x8000 with hfilter | h8000
  · obtain ⟨off, rfl⟩ := Nat.exists_eq_add_of_le h1000
    rw [memRead_of_filter s (by omega), filterReg_eq_none_iff]; omega
  · obtain ⟨off, rfl⟩ := Nat.exists_eq_add_of_le h8000
    rw [memRead_of_coef s (by omega), coefRegAt_eq_none_iff]; omega

/-! ### RDREG (R46, R124) -/

/-- No address of the map shows the response stream. -/
theorem memRead_emit (s : State) (ws : List Word) (a : Nat) : memRead (s.emit ws) a = memRead s a := rfl

theorem allowedIn_rdreg {m : Mode} (hm : m ≠ .fault) : allowedIn .rdreg m = true := by
  cases m with
  | uninit => rfl
  | ready => rfl
  | fault => exact absurd rfl hm

theorem exec_rdreg_of_mapped {s : State} {a : Nat} {w : Word} (hm : s.mode ≠ .fault) (h : memRead s a = some w) :
    exec (.rdreg a) s = .next (s.emit [w]) := by
  rw [exec_of_allowed (.rdreg a) s (allowedIn_rdreg hm)]
  simp [commandEffect, h]

theorem exec_rdreg_of_unmapped {s : State} {a : Nat} (hm : s.mode ≠ .fault) (h : memRead s a = none) :
    exec (.rdreg a) s = .next (s.raiseFault .addr) := by
  rw [exec_of_allowed (.rdreg a) s (allowedIn_rdreg hm)]
  simp [commandEffect, h]

/-! ### The STATUS word (R47) -/

theorem toNat_statusWord (s : State) :
    s.statusWord.toNat = (phaseBits s.phase).toNat * 4 + (modeBits s.mode).toNat := by
  have hphase := (phaseBits s.phase).isLt
  have hmode := (modeBits s.mode).isLt
  rw [State.statusWord, BitVec.toNat_ofNat, Nat.mod_eq_of_lt (by omega)]

/-- The phase as R99 gives it, from the silence counter and the thresholds. -/
theorem toNat_phaseBits_phase (s : State) :
    (phaseBits s.phase).toNat = if s.silCnt < s.fadeStart then 0 else if s.silCnt < s.fadeEnd then 1 else 2 := by
  unfold State.phase
  simp only [BitVec.lt_def]
  split
  · rfl
  · split <;> rfl

end Sys2Proof.Machine
end

section
/-! The statements about the memory (20_memory.md): the streams, the register space and the sideband. -/

namespace Sys2Proof.Machine

/-- Settles O11: the four bytes of a word add up to it, and each word fills its four. -/
theorem littleEndianLayoutReadsBack : Obligations.LittleEndianLayoutReadsBack :=
  fun ws => ⟨streamWords_streamBytes ws, length_streamBytes ws, fun k _ _ hb => getElem?_streamBytes ws k hb⟩

/-- Settles O13: each thing a step can do adds at the end of the response stream or leaves it, and the power-on reset
keeps what was there. -/
theorem responsesOnlyGrow : Obligations.ResponsesOnlyGrow := by
  intro s t h
  cases hp : s.por with
  | none => exact step_addsResponses_of_por_none hp h
  | some k => exact ⟨_, by rw [eq_powerOnAfter_of_step hp h, powerOnAfter_output]⟩

/-- Settles O30: each address lies in the region of its rule, at the offset that names its register. -/
theorem registerMapValues : Obligations.RegisterMapValues := by
  intro s hmax
  refine ⟨rfl, rfl, rfl, rfl, rfl, rfl, fun p => ?smoothers, fun c st hc hst => ?channels⟩
  case smoothers =>
    have hlaw : lawWord (s.smoother p).law = BitVec.ofNat 32 (lawBit (s.smoother p).law) := by
      cases (s.smoother p).law <;> rfl
    rw [← hlaw]
    exact ⟨memRead_of_smoother s p (k := 0) (by decide), memRead_of_smoother s p (by decide),
      memRead_of_smoother s p (by decide), memRead_of_smoother s p (by decide), memRead_of_smoother s p (by decide)⟩
  case channels =>
    refine ⟨memRead_stage hmax hc hst (k := 0) (by decide), memRead_stage hmax hc hst (by decide),
      fun hsound hunused => ⟨?s1, ?s2⟩,
      memRead_stageCoef hmax hc hst (j := 0) (by decide), memRead_stageCoef hmax hc hst (by decide),
      memRead_stageCoef hmax hc hst (by decide), memRead_stageCoef hmax hc hst (by decide),
      memRead_stageCoef hmax hc hst (by decide), fun j hj hj8 => ?unmapped⟩
    case s1 => exact memRead_unusedChannel hsound hunused hc (by omega)
    case s2 => rw [Nat.add_assoc _ (2 * st)]; exact memRead_unusedChannel hsound hunused hc (by omega)
    case unmapped => rw [memRead_stageCoef hmax hc hst hj8, coefReg_eq_none_iff]; exact hj

/-- Settles O31: each region of the map leaves unmapped what R52 lists of it. -/
theorem unmappedAddressesExactly : Obligations.UnmappedAddressesExactly := fun _ _ hmax ha =>
  ⟨memRead_eq_none_iff hmax ha, fun h hm => exec_rdreg_of_unmapped hm ((memRead_eq_none_iff hmax ha).2 h)⟩

/-- Settles O32: the invariant keeps the cascades of those channels in zero state. -/
theorem unusedChannelsReadZero : Obligations.UnusedChannelsReadZero :=
  fun _ _ _ hsound hunused hc hr => memRead_unusedChannel hsound hunused hc hr

/-- Settles O28: RDREG is allowed outside `FAULT`, and the map does not show the response it adds. -/
theorem rdregAnswersTheMap : Obligations.RdregAnswersTheMap := fun s _ hm =>
  ⟨fun w h => ⟨exec_rdreg_of_mapped hm h, memRead_emit s [w]⟩, exec_rdreg_of_unmapped hm⟩

/-- Settles O29: the mode fits below the phase, two bits each. -/
theorem statusWordLayout : Obligations.StatusWordLayout := by
  intro s
  have hword := toNat_statusWord s
  have hphase := (phaseBits s.phase).isLt
  have hmode := (modeBits s.mode).isLt
  refine ⟨s.statusWord, rfl, by omega, ?mode, ?phase⟩
  case mode =>
    have hlow : s.statusWord.toNat % 4 = (modeBits s.mode).toNat := by omega
    rw [hlow]
    cases s.mode <;> rfl
  case phase =>
    have hhigh : s.statusWord.toNat / 4 = (phaseBits s.phase).toNat := by omega
    rw [hhigh, toNat_phaseBits_phase]

/-- Settles O58: each mode and each code has its own bits. -/
theorem sidebandShowsModeAndErr : Obligations.SidebandShowsModeAndErr := by
  intro s
  constructor
  · unfold State.sideband; cases s.mode <;> rfl
  · unfold State.sideband; cases s.err <;> rfl

end Sys2Proof.Machine
end

section
/-! The facts about the encoding (30_encoding.md sections 1 to 5): the checks of a header word, the row of the opcode
table it matches, and the words of a command, which decode to it and to nothing else. -/

namespace Sys2Proof.Machine

/-! ### The opcode (R62 to R66, R70) -/

theorem opcodeOf_opcodeCode (op : Opcode) : opcodeOf (opcodeCode op) = some op := by
  cases op <;> rfl

theorem eq_opcodeCode_of_opcodeOf {code : Nat} {op : Opcode} (h : opcodeOf code = some op) : code = opcodeCode op := by
  unfold opcodeOf at h
  split at h <;> cases h <;> rfl

theorem opcodeCode_range (op : Opcode) : 1 ≤ opcodeCode op ∧ opcodeCode op ≤ 5 := by
  cases op <;> decide

theorem opcodeOf_eq_none {code : Nat} (h : code = 0 ∨ 5 < code) : opcodeOf code = none := by
  cases hop : opcodeOf code with
  | none => rfl
  | some op =>
    have hcode := eq_opcodeCode_of_opcodeOf hop
    have hrange := opcodeCode_range op
    omega

/-- The opcode is the top field of the header: nothing stands above it. -/
theorem bits_opcode (h : Word) : bits h 31 24 = h.toNat / 2 ^ 24 :=
  Nat.mod_eq_of_lt (by have := h.isLt; omega)

/-! ### The must-be-zero fields (R62 to R66) -/

/-- INIT, PROC and RDREG use the field `N`, and no bit of `ARG`. -/
theorem reservedFieldsZero_iff_of_count {op : Opcode} (hreset : op ≠ .reset) (hcfg : op ≠ .cfg) (h : Word) :
    reservedFieldsZero op h = true ↔ h.toNat / 2 ^ 16 % 2 ^ 8 = 0 := by
  cases op with
  | init | proc | rdreg => exact beq_iff_eq
  | reset => exact absurd rfl hreset
  | cfg => exact absurd rfl hcfg

theorem reservedFieldsZero_reset_iff (h : Word) : reservedFieldsZero .reset h = true ↔ h.toNat % 2 ^ 24 = 0 := by
  simp only [reservedFieldsZero, bits, Bool.and_eq_true, beq_iff_eq]
  omega

theorem reservedFieldsZero_cfg_iff (h : Word) :
    reservedFieldsZero .cfg h = true ↔ h.toNat / 2 ^ 18 % 2 ^ 6 = 0 ∧ h.toNat % 2 ^ 16 = 0 := by
  simp only [reservedFieldsZero, bits, Bool.and_eq_true, beq_iff_eq]
  omega

/-! ### The two checks of a header (R69 steps 1 and 2) -/

theorem decodeHeader_of_reservedOpcode {h : Word} (hcode : h.toNat / 2 ^ 24 = 0 ∨ 5 < h.toNat / 2 ^ 24) :
    decodeHeader h = .error .reservedOpcode := by
  unfold decodeHeader
  rw [bits_opcode, opcodeOf_eq_none hcode]

theorem decodeHeader_of_opcode {h : Word} {op : Opcode} (hcode : h.toNat / 2 ^ 24 = opcodeCode op) :
    decodeHeader h = if reservedFieldsZero op h then .ok op else .error (.reservedField op) := by
  unfold decodeHeader
  rw [bits_opcode, hcode, opcodeOf_opcodeCode]

theorem decodeHeader_of_reservedField {h : Word} {op : Opcode} (hcode : h.toNat / 2 ^ 24 = opcodeCode op)
    (hfield : ¬ reservedFieldsZero op h = true) : decodeHeader h = .error (.reservedField op) := by
  rw [decodeHeader_of_opcode hcode, if_neg hfield]

theorem decodeHeader_eq_ok_iff (h : Word) (op : Opcode) :
    decodeHeader h = .ok op ↔ h.toNat / 2 ^ 24 = opcodeCode op ∧ reservedFieldsZero op h = true := by
  constructor
  · intro hok
    unfold decodeHeader at hok
    split at hok
    · cases hok
    · next op' hop =>
      split at hok
      · next hfield =>
        cases hok
        rw [bits_opcode] at hop
        exact ⟨eq_opcodeCode_of_opcodeOf hop, hfield⟩
      · cases hok
  · rintro ⟨hcode, hfield⟩
    rw [decodeHeader_of_opcode hcode, if_pos hfield]

/-! ### The rows of the opcode table -/

theorem toNat_rowMatch (op : Opcode) : (Laws.rowMatch op).toNat = opcodeCode op * 2 ^ 24 := by
  cases op <;> rfl

/-- The mask of the row of CFG leaves the two flags out: it keeps the bits above them and the field `N`. -/
theorem and_cfgMask (h : Word) : h &&& 0xFFFCFFFF#32 = (h >>> 18) <<< 18 ||| h &&& 0x0000FFFF#32 := by
  apply BitVec.eq_of_getLsbD_eq
  intro i hi
  rw [BitVec.getLsbD_or, BitVec.getLsbD_and, BitVec.getLsbD_and, BitVec.getLsbD_shiftLeft, BitVec.getLsbD_ushiftRight]
  interval_cases i <;> simp

theorem toNat_and_cfgMask (h : Word) :
    (h &&& 0xFFFCFFFF#32).toNat = h.toNat / 2 ^ 18 * 2 ^ 18 + h.toNat % 2 ^ 16 := by
  have hlt := h.isLt
  have hhigh : ((h >>> 18) <<< 18).toNat = (h.toNat / 2 ^ 18) <<< 18 := by
    rw [BitVec.toNat_shiftLeft, BitVec.toNat_ushiftRight, Nat.shiftLeft_eq, Nat.shiftRight_eq_div_pow]
    omega
  have hlow : (h &&& 0x0000FFFF#32).toNat = h.toNat % 2 ^ 16 := Nat.and_two_pow_sub_one_eq_mod _ 16
  have hfit : h.toNat % 2 ^ 16 < 2 ^ 18 := by omega
  rw [and_cfgMask, BitVec.toNat_or, hhigh, hlow, ← Nat.shiftLeft_add_eq_or_of_lt hfit, Nat.shiftLeft_eq]

/-- A word matches the row of an opcode exactly where it holds that opcode and its must-be-zero fields are zero. -/
theorem and_rowMask_eq_iff (h : Word) (op : Opcode) :
    h &&& Laws.rowMask op = Laws.rowMatch op ↔
      h.toNat / 2 ^ 24 = opcodeCode op ∧ reservedFieldsZero op h = true := by
  have hlt := h.isLt
  rw [← BitVec.toNat_inj, toNat_rowMatch]
  cases op with
  | init | proc | rdreg =>
    rw [reservedFieldsZero_iff_of_count (by decide) (by decide), Laws.rowMask, Laws.toNat_and_highMask, opcodeCode]
    omega
  | reset =>
    have hmask : h &&& Laws.rowMask .reset = h := BitVec.and_allOnes
    rw [reservedFieldsZero_reset_iff, hmask, opcodeCode]
    omega
  | cfg =>
    rw [reservedFieldsZero_cfg_iff, Laws.rowMask, toNat_and_cfgMask, opcodeCode]
    omega

theorem decodeHeader_eq_ok_iff_row (h : Word) (op : Opcode) :
    decodeHeader h = .ok op ↔ h &&& Laws.rowMask op = Laws.rowMatch op :=
  (decodeHeader_eq_ok_iff h op).trans (and_rowMask_eq_iff h op).symm

/-! ### From a command to its words -/

theorem encode_matches_row (i : Instr) : Laws.TableRow.Statement i := by
  cases i with
  | init nch fs => exact Laws.TableRow.init nch fs
  | reset => exact Laws.TableRow.reset
  | cfg p law target ramp => exact Laws.TableRow.cfg p law target ramp
  | proc n => exact Laws.TableRow.proc n
  | rdreg addr => exact Laws.TableRow.rdreg addr

theorem decodeHeader_encode {i : Instr} {h : Word} {ops : List Word} (hwf : i.wellFormed = true)
    (he : encode i = h :: ops) : decodeHeader h = .ok i.opcode := by
  obtain ⟨h', ops', he', hrow⟩ := encode_matches_row i hwf
  obtain ⟨rfl, -⟩ := List.cons.inj (he.symm.trans he')
  exact (decodeHeader_eq_ok_iff_row h i.opcode).2 hrow

theorem bits_count_headerWord (opc arg : Nat) {n : Nat} (hn : n < 2 ^ 16) : bits (headerWord opc arg n) 15 0 = n := by
  unfold bits headerWord
  rw [BitVec.toNat_ofNat]
  omega

theorem smIdxOfBit_cfgHeader (p : SmIdx) (law : Law) :
    smIdxOfBit (bits (headerWord 3 (2 * lawBit law + smIdxBit p) 0) 16 16) = p := by
  cases p <;> cases law <;> rfl

theorem lawOfBit_cfgHeader (p : SmIdx) (law : Law) :
    lawOfBit (bits (headerWord 3 (2 * lawBit law + smIdxBit p) 0) 17 17) = law := by
  cases p <;> cases law <;> rfl

/-- The fields and operand words of an encoded command give it back. -/
theorem withOperands_encode {i : Instr} {h : Word} {ops : List Word} (rest : List Word) (hwf : i.wellFormed = true)
    (he : encode i = h :: ops) : withOperands i.opcode h (ops ++ rest) = some (i, rest) := by
  cases i with
  | init n fs | proc n | rdreg n =>
    obtain ⟨rfl, rfl⟩ := List.cons.inj he
    have hn : n < 2 ^ 16 := of_decide_eq_true hwf
    simp [Instr.opcode, withOperands, bits_count_headerWord _ _ hn]
  | reset =>
    obtain ⟨rfl, rfl⟩ := List.cons.inj he
    rfl
  | cfg p law target ramp =>
    obtain ⟨rfl, rfl⟩ := List.cons.inj he
    simp [Instr.opcode, withOperands, smIdxOfBit_cfgHeader, lawOfBit_cfgHeader]

/-- Decoding is the two checks of the header, then the operand words. -/
theorem decode_eq_ok_iff (ws rest : List Word) (i : Instr) :
    decode ws = .ok (i, rest) ↔
      ∃ h ops op, ws = h :: ops ∧ decodeHeader h = .ok op ∧ withOperands op h ops = some (i, rest) := by
  constructor
  · intro hdec
    unfold decode at hdec
    split at hdec
    · cases hdec
    · next h ops =>
      split at hdec
      · cases hdec
      · next op hop =>
        split at hdec
        · cases hdec
        · next r hr =>
          cases hdec
          exact ⟨h, ops, op, rfl, hop, hr⟩
  · rintro ⟨h, ops, op, rfl, hop, hr⟩
    simp [decode, hop, hr]

theorem decode_encode_append {i : Instr} (rest : List Word) (hwf : i.wellFormed = true) :
    decode (encode i ++ rest) = .ok (i, rest) := by
  obtain ⟨h, ops, he, -⟩ := encode_matches_row i hwf
  rw [he]
  exact (decode_eq_ok_iff _ _ _).2
    ⟨h, ops ++ rest, i.opcode, rfl, decodeHeader_encode hwf he, withOperands_encode rest hwf he⟩

/-! ### From words to the command -/

/-- A header is made of its three fields (R60). -/
theorem headerWord_fields (h : Word) : headerWord (h.toNat / 2 ^ 24) (bits h 23 16) (bits h 15 0) = h := by
  have hlt := h.isLt
  apply BitVec.eq_of_toNat_eq
  unfold headerWord bits
  rw [BitVec.toNat_ofNat]
  omega

theorem headerWord_of_count {h : Word} {op : Opcode} (hreset : op ≠ .reset) (hcfg : op ≠ .cfg)
    (hok : decodeHeader h = .ok op) : headerWord (opcodeCode op) 0 (bits h 15 0) = h := by
  obtain ⟨hcode, hfield⟩ := (decodeHeader_eq_ok_iff h op).1 hok
  have harg : bits h 23 16 = 0 := (reservedFieldsZero_iff_of_count hreset hcfg h).1 hfield
  calc headerWord (opcodeCode op) 0 (bits h 15 0)
      = headerWord (h.toNat / 2 ^ 24) (bits h 23 16) (bits h 15 0) := by rw [hcode, harg]
    _ = h := headerWord_fields h

theorem headerWord_of_reset {h : Word} (hok : decodeHeader h = .ok .reset) : headerWord 2 0 0 = h := by
  rw [decodeHeader_eq_ok_iff_row] at hok
  exact hok.symm.trans BitVec.and_allOnes

theorem smIdxBit_smIdxOfBit {b : Nat} (hb : b < 2) : smIdxBit (smIdxOfBit b) = b := by
  interval_cases b <;> rfl

theorem lawBit_lawOfBit {b : Nat} (hb : b < 2) : lawBit (lawOfBit b) = b := by
  interval_cases b <;> rfl

theorem headerWord_of_cfg {h : Word} (hok : decodeHeader h = .ok .cfg) :
    headerWord 3 (2 * lawBit (lawOfBit (bits h 17 17)) + smIdxBit (smIdxOfBit (bits h 16 16))) 0 = h := by
  obtain ⟨hcode, hfield⟩ := (decodeHeader_eq_ok_iff h .cfg).1 hok
  obtain ⟨hhigh, hlow⟩ := (reservedFieldsZero_cfg_iff h).1 hfield
  have hn : bits h 15 0 = 0 := by unfold bits; omega
  have harg : 2 * bits h 17 17 + bits h 16 16 = bits h 23 16 := by unfold bits; omega
  have hlaw : bits h 17 17 < 2 := Nat.mod_lt _ (by decide)
  have hidx : bits h 16 16 < 2 := Nat.mod_lt _ (by decide)
  rw [lawBit_lawOfBit hlaw, smIdxBit_smIdxOfBit hidx, harg]
  calc headerWord 3 (bits h 23 16) 0
      = headerWord (h.toNat / 2 ^ 24) (bits h 23 16) (bits h 15 0) := by rw [hcode, hn, opcodeCode]
    _ = h := headerWord_fields h

/-- The header and operand words of a decoded command are its encoding. -/
theorem eq_encode_append_of_withOperands {op : Opcode} {h : Word} {ops rest : List Word} {i : Instr}
    (hok : decodeHeader h = .ok op) (hr : withOperands op h ops = some (i, rest)) : h :: ops = encode i ++ rest := by
  unfold withOperands at hr
  split at hr
  · next fs rest =>
    cases hr
    exact congrArg (· :: fs :: rest) (headerWord_of_count (by decide) (by decide) hok).symm
  · cases hr
    exact congrArg (· :: ops) (headerWord_of_reset hok).symm
  · next target ramp rest =>
    cases hr
    exact congrArg (· :: target :: ramp :: rest) (headerWord_of_cfg hok).symm
  · cases hr
    exact congrArg (· :: ops) (headerWord_of_count (by decide) (by decide) hok).symm
  · cases hr
    exact congrArg (· :: ops) (headerWord_of_count (by decide) (by decide) hok).symm
  · cases hr

end Sys2Proof.Machine
end

section
/-! What the front of the command stream comes to (30_encoding.md section 4, R69), one equation for each case, and the
step it makes. -/

namespace Sys2Proof.Machine

/-! ### The front of the command stream -/

theorem fetchCommand_of_header {s : State} {h : Word} {ops : List Word} (hw : s.pending ++ s.input = h :: ops) :
    fetchCommand s = fetchHeader h ops s := by
  unfold fetchCommand
  rw [hw]

theorem fetchHeader_of_error {s : State} {h : Word} {e : DecodeError} (ops : List Word)
    (herr : decodeHeader h = .error e) : fetchHeader h ops s = .settled ((s.takeWords 1).raiseFault .illegal) := by
  unfold fetchHeader
  rw [herr]

theorem fetchHeader_of_not_allowed {s : State} {h : Word} {op : Opcode} (ops : List Word)
    (hok : decodeHeader h = .ok op) (ha : allowedIn op s.mode = false) :
    fetchHeader h ops s = .settled ((s.takeWords 1).raiseFault .state) := by
  simp [fetchHeader, hok, ha]

theorem fetchHeader_of_allowed {s : State} {h : Word} {op : Opcode} (ops : List Word)
    (hok : decodeHeader h = .ok op) (ha : allowedIn op s.mode = true) :
    fetchHeader h ops s = fetchOperands op h ops s := by
  simp [fetchHeader, hok, ha]

theorem fetchOperands_of_none {s : State} {op : Opcode} {h : Word} {ops : List Word}
    (hr : withOperands op h ops = none) : fetchOperands op h ops s = .settled s.awaitWords := by
  unfold fetchOperands
  rw [hr]

theorem fetchOperands_of_some {s : State} {op : Opcode} {h : Word} {ops rest : List Word} {i : Instr}
    (hr : withOperands op h ops = some (i, rest)) :
    fetchOperands op h ops s = .run i (s.takeWords (decodedLength i)) := by
  unfold fetchOperands
  rw [hr]

/-! ### The step -/

theorem mode_ne_fault_of_allowedIn {op : Opcode} {m : Mode} (ha : allowedIn op m = true) : m ≠ .fault := by
  rintro rfl
  rw [allowedIn_fault] at ha
  exact Bool.false_ne_true ha

theorem step_of_settled {s t : State} (hp : s.por = none) (h : fetch s = .settled t) : step s = .next t := by
  rw [step_of_por_none s hp, h]
  rfl

theorem step_of_run {s t : State} {i : Instr} (hp : s.por = none) (h : fetch s = .run i t) : step s = exec i t := by
  rw [step_of_por_none s hp, h, exec_eq]
  rfl

theorem step_illegal {s : State} {h : Word} {ops : List Word} {e : DecodeError} (hp : s.por = none)
    (hm : s.mode ≠ .fault) (hl : s.procLeft = 0) (hw : s.pending ++ s.input = h :: ops)
    (herr : decodeHeader h = .error e) : step s = .next ((s.takeWords 1).raiseFault .illegal) :=
  step_of_settled hp (by rw [fetch_of_command s hm hl, fetchCommand_of_header hw, fetchHeader_of_error ops herr])

theorem step_wrongMode {s : State} {h : Word} {ops : List Word} {op : Opcode} (hp : s.por = none)
    (hm : s.mode ≠ .fault) (hl : s.procLeft = 0) (hw : s.pending ++ s.input = h :: ops)
    (hok : decodeHeader h = .ok op) (ha : allowedIn op s.mode = false) :
    step s = .next ((s.takeWords 1).raiseFault .state) :=
  step_of_settled hp
    (by rw [fetch_of_command s hm hl, fetchCommand_of_header hw, fetchHeader_of_not_allowed ops hok ha])

theorem fetch_of_allowed {s : State} {h : Word} {ops : List Word} {op : Opcode} (hl : s.procLeft = 0)
    (hw : s.pending ++ s.input = h :: ops) (hok : decodeHeader h = .ok op) (ha : allowedIn op s.mode = true) :
    fetch s = fetchOperands op h ops s := by
  rw [fetch_of_command s (mode_ne_fault_of_allowedIn ha) hl, fetchCommand_of_header hw,
    fetchHeader_of_allowed ops hok ha]

theorem step_awaits {s : State} {h : Word} {ops : List Word} {op : Opcode} (hp : s.por = none) (hl : s.procLeft = 0)
    (hok : decodeHeader h = .ok op) (ha : allowedIn op s.mode = true) (hr : withOperands op h ops = none)
    (hw : s.pending ++ s.input = h :: ops) :
    step s = .next { s with cursor := s.cursor + s.input.length, input := [], pending := h :: ops } := by
  rw [step_of_settled hp ((fetch_of_allowed hl hw hok ha).trans (fetchOperands_of_none hr)), State.awaitWords, hw]

theorem step_of_decode {s : State} {i : Instr} {rest : List Word} (hp : s.por = none) (hl : s.procLeft = 0)
    (hdec : decode (s.pending ++ s.input) = .ok (i, rest)) (ha : allowedIn i.opcode s.mode = true) :
    step s = exec i (s.takeWords (decodedLength i)) := by
  obtain ⟨h, ops, op, hw, hok, hr⟩ := (decode_eq_ok_iff _ _ _).1 hdec
  rw [withOperands_opcode op h ops i rest hr] at ha
  exact step_of_run hp ((fetch_of_allowed hl hw hok ha).trans (fetchOperands_of_some hr))

/-- What decoding leaves is what stands behind the words of the command. -/
theorem rest_of_decode {ws rest : List Word} {i : Instr} (hdec : decode ws = .ok (i, rest)) :
    ws.drop (decodedLength i) = rest := by
  obtain ⟨h, ops, op, rfl, -, hr⟩ := (decode_eq_ok_iff _ _ _).1 hdec
  obtain ⟨-, -, hrest⟩ := withOperands_length op h ops i rest hr
  exact hrest.symm

/-- Between commands a fault at the header takes one word, and writes `MODE` and `ERR` (R68, R128). -/
theorem raiseFault_takeWords_one {s : State} {h : Word} {ops : List Word} (hb : s.betweenCommands)
    (hi : s.input = h :: ops) (code : FaultCode) :
    (s.takeWords 1).raiseFault code = { s with mode := .fault, err := code, cursor := s.cursor + 1, input := ops } := by
  obtain ⟨hpending, -⟩ := hb
  simp [State.raiseFault, State.takeWords, hpending, hi]

theorem discardWord_of_cons {s : State} {h : Word} {ops : List Word} (hi : s.input = h :: ops) :
    s.discardWord = { s with cursor := s.cursor + 1, input := ops } := by
  unfold State.discardWord
  rw [hi]

end Sys2Proof.Machine
end

section
/-! The statements about the encoding (30_encoding.md). -/

namespace Sys2Proof.Machine

/-- Settles O8: the header matches the row of its opcode, and its fields and operand words are those encoded. -/
theorem decodeOfEncodeIsIdentity : Obligations.DecodeOfEncodeIsIdentity :=
  fun _ rest hwf => decode_encode_append rest hwf

/-- Settles O7: the two checks and the row of an opcode both ask for its code and zero must-be-zero fields. -/
theorem headerSoundExactlyByTableRow : Obligations.HeaderSoundExactlyByTableRow := fun h =>
  ⟨decodeHeader_eq_ok_iff_row h .init, decodeHeader_eq_ok_iff_row h .reset, decodeHeader_eq_ok_iff_row h .cfg,
    decodeHeader_eq_ok_iff_row h .proc, decodeHeader_eq_ok_iff_row h .rdreg⟩

/-- Settles O9: a sound header has no bit beyond those that its command is read from. -/
theorem decodedWordsAreTheEncoding : Obligations.DecodedWordsAreTheEncoding := by
  intro ws rest i hdec
  obtain ⟨h, ops, op, rfl, hok, hr⟩ := (decode_eq_ok_iff _ _ _).1 hdec
  exact ⟨withOperands_wellFormed op h ops i rest hr, eq_encode_append_of_withOperands hok hr⟩

/-- Settles O6: each clause is one case of the front of the stream. -/
theorem headerChecksInOrder : Obligations.HeaderChecksInOrder := by
  intro s h ops hp hb hi
  have hw : s.pending ++ s.input = h :: ops := by
    obtain ⟨hpending, -⟩ := hb
    rw [hpending, hi, List.nil_append]
  have hl : s.procLeft = 0 := by
    obtain ⟨-, hl⟩ := hb
    exact hl
  have hillegal : ∀ e, s.mode ≠ .fault → decodeHeader h = .error e →
      step s = .next { s with mode := .fault, err := .illegal, cursor := s.cursor + 1, input := ops } := by
    intro e hm herr
    rw [step_illegal hp hm hl hw herr, raiseFault_takeWords_one hb hi]
  refine ⟨?fault, ?opcode, ?count, ?reset, ?cfg, ?mode⟩
  case fault =>
    intro hm
    rw [step_of_settled hp (fetch_of_fault s hm), discardWord_of_cons hi]
  case opcode => exact fun hm hcode => hillegal _ hm (decodeHeader_of_reservedOpcode hcode)
  case count =>
    intro hm hcode harg
    have hfield : ∀ op, op ≠ .reset → op ≠ .cfg → h.toNat / 2 ^ 24 = opcodeCode op →
        decodeHeader h = .error (.reservedField op) := fun op hreset hcfg hcode =>
      decodeHeader_of_reservedField hcode (mt (reservedFieldsZero_iff_of_count hreset hcfg h).1 harg)
    rcases hcode with hinit | hproc | hrdreg
    · exact hillegal _ hm (hfield .init (by decide) (by decide) hinit)
    · exact hillegal _ hm (hfield .proc (by decide) (by decide) hproc)
    · exact hillegal _ hm (hfield .rdreg (by decide) (by decide) hrdreg)
  case reset =>
    intro hm hcode hlow
    exact hillegal _ hm
      (decodeHeader_of_reservedField (op := .reset) hcode (mt (reservedFieldsZero_reset_iff h).1 hlow))
  case cfg =>
    intro hm hcode hfields
    rw [← not_and_or] at hfields
    exact hillegal _ hm
      (decodeHeader_of_reservedField (op := .cfg) hcode (mt (reservedFieldsZero_cfg_iff h).1 hfields))
  case mode =>
    intro op hok hm ha
    rw [step_wrongMode hp hm hl hw hok ha, raiseFault_takeWords_one hb hi]

/-- Settles O5: decoding and the front of the stream go through the same checks, and taking the command's words drops
those that are held before those that are offered. -/
theorem stepRunsDecodedCommand : Obligations.StepRunsDecodedCommand := by
  intro s i rest hp hl hdec ha
  refine ⟨?wellFormed, step_of_decode hp hl hdec ha, fun hheld => ?rest⟩
  case wellFormed =>
    obtain ⟨hwf, -⟩ := decodedWordsAreTheEncoding _ _ _ hdec
    exact hwf
  case rest => rw [← rest_of_decode hdec, List.drop_append, List.drop_eq_nil_of_le hheld, List.nil_append]

/-- Settles O10: the accepted words are the encodings of their commands; the rejected ones fail a header check. -/
theorem knownWordsDecode : Obligations.KnownWordsDecode :=
  ⟨decode_encode_append (i := .init 2 0x473B8000#32) [] rfl, decode_encode_append (i := .reset) [] rfl,
    decode_encode_append (i := .cfg .dist .lin 0x3F800000#32 0x41200000#32) [] rfl,
    decode_encode_append (i := .cfg .gain .log 0x3E800000#32 0x00000000#32) [] rfl,
    decode_encode_append (i := .proc 14) [] rfl, decode_encode_append (i := .rdreg 0x12) [] rfl,
    by decide, by decide, by decide⟩

/-- Settles O16: INIT lacks an operand with no word behind its header, CFG with none and with one. -/
theorem operandsAwaitedBeforeEffect : Obligations.OperandsAwaitedBeforeEffect := by
  intro s h hp hl
  refine ⟨fun hm hok hw => ?init, fun hm hok => ⟨fun hw => ?header, fun target hw => ?operand⟩⟩
  case init => exact step_awaits hp hl hok (by rw [hm]; rfl) rfl hw
  case header => exact step_awaits hp hl hok (by rw [hm]; rfl) rfl hw
  case operand => exact step_awaits hp hl hok (by rw [hm]; rfl) rfl hw

/-- Settles O18: the check of the mode comes before the meaning of each command. -/
theorem wrongModeRaisesState : Obligations.WrongModeRaisesState := by
  intro s
  refine ⟨fun hm nch fs => ?init, fun hm => ⟨?reset, fun p law target ramp => ?cfg, fun n => ?proc⟩⟩
  case init => exact exec_of_not_allowed (.init nch fs) s (by rw [hm]; decide) (by rw [hm]; rfl)
  case reset => exact exec_of_not_allowed .reset s (by rw [hm]; decide) (by rw [hm]; rfl)
  case cfg => exact exec_of_not_allowed (.cfg p law target ramp) s (by rw [hm]; decide) (by rw [hm]; rfl)
  case proc => exact exec_of_not_allowed (.proc n) s (by rw [hm]; decide) (by rw [hm]; rfl)

end Sys2Proof.Machine
end

section
/-! The laws of one smoother (40_smoother.md): what one advance writes (R77), where any number of advances leads (R73,
R79), and the ramp that CFG starts (R74 to R76). -/

namespace Sys2Proof.Machine

/-! ### One advance (R77) -/

theorem smNext_of_rem_le_one {sm : Smoother} (h : sm.rem.toNat ≤ 1) :
    smNext sm = { sm with cur := sm.tgt, rem := 0#32 } :=
  if_pos h

theorem smNext_of_lin {sm : Smoother} (h : 2 ≤ sm.rem.toNat) (hlaw : sm.law = .lin) :
    smNext sm = { sm with cur := fadd sm.cur sm.step, rem := sm.rem - 1#32 } := by
  rw [smNext, if_neg (by omega), hlaw]

theorem smNext_of_log {sm : Smoother} (h : 2 ≤ sm.rem.toNat) (hlaw : sm.law = .log) :
    smNext sm = { sm with cur := fmul sm.cur sm.step, rem := sm.rem - 1#32 } := by
  rw [smNext, if_neg (by omega), hlaw]

/-- One advance of a ramp that has more than its last step to go, whatever its law. -/
theorem smNext_of_two_le {sm : Smoother} (h : 2 ≤ sm.rem.toNat) :
    ∃ cur, smNext sm = { sm with cur := cur, rem := sm.rem - 1#32 } := by
  cases hlaw : sm.law with
  | lin => exact ⟨fadd sm.cur sm.step, by rw [smNext_of_lin h hlaw, hlaw]⟩
  | log => exact ⟨fmul sm.cur sm.step, by rw [smNext_of_log h hlaw, hlaw]⟩

theorem smNext_tgt (sm : Smoother) : (smNext sm).tgt = sm.tgt := by
  rcases Nat.lt_or_ge 1 sm.rem.toNat with hrun | hlast
  · obtain ⟨cur, hnext⟩ := smNext_of_two_le hrun
    rw [hnext]
  · rw [smNext_of_rem_le_one hlast]

/-- One advance uses up one step, if there is one. -/
theorem toNat_smNext_rem (sm : Smoother) : (smNext sm).rem.toNat = sm.rem.toNat - 1 := by
  rcases Nat.lt_or_ge 1 sm.rem.toNat with hrun | hlast
  · obtain ⟨cur, hnext⟩ := smNext_of_two_le hrun
    rw [hnext]
    bv_omega
  · rw [smNext_of_rem_le_one hlast]
    bv_omega

/-! ### Any number of advances (R73, R79) -/

theorem iterate_smNext_tgt (sm : Smoother) (n : Nat) : (smNext^[n] sm).tgt = sm.tgt := by
  induction n with
  | zero => rfl
  | succ n ih => rw [Function.iterate_succ_apply', smNext_tgt, ih]

theorem toNat_iterate_smNext_rem (sm : Smoother) (n : Nat) : (smNext^[n] sm).rem.toNat = sm.rem.toNat - n := by
  induction n with
  | zero => rfl
  | succ n ih => rw [Function.iterate_succ_apply', toNat_smNext_rem, ih, Nat.sub_sub]

/-- The advance that takes the last step of a ramp, and each one after it, writes the target. -/
theorem iterate_smNext_cur {sm : Smoother} {n : Nat} (h : sm.rem.toNat ≤ n + 1) :
    (smNext^[n + 1] sm).cur = sm.tgt := by
  have hlast : (smNext^[n] sm).rem.toNat ≤ 1 := by
    rw [toNat_iterate_smNext_rem]
    omega
  rw [Function.iterate_succ_apply', smNext_of_rem_le_one hlast]
  exact iterate_smNext_tgt sm n

/-! ### The ramp of CFG (R74 to R76) -/

theorem rampStep_zero (law : Law) (start target : Word) : rampStep law start target 0#32 = posZero :=
  if_pos rfl

theorem rampStep_lin {n : Word} (start target : Word) (hn : n ≠ 0#32) :
    rampStep .lin start target n = fdiv (fsub target start) (u2f n) :=
  if_neg hn

theorem rampStep_log {n : Word} (start target : Word) (hn : n ≠ 0#32) :
    rampStep .log start target n = Config.powf (fdiv target start) (fdiv one (u2f n)) :=
  if_neg hn

@[simp] theorem smConfigure_cur (fs : Word) (law : Law) (target ramp : Word) (sm : Smoother) :
    (smConfigure fs law target ramp sm).cur = sm.cur := by
  unfold smConfigure; rfl
@[simp] theorem smConfigure_tgt (fs : Word) (law : Law) (target ramp : Word) (sm : Smoother) :
    (smConfigure fs law target ramp sm).tgt = target := by
  unfold smConfigure; rfl
@[simp] theorem smConfigure_rem (fs : Word) (law : Law) (target ramp : Word) (sm : Smoother) :
    (smConfigure fs law target ramp sm).rem = ms2n ramp fs := by
  unfold smConfigure; rfl
@[simp] theorem smConfigure_step (fs : Word) (law : Law) (target ramp : Word) (sm : Smoother) :
    (smConfigure fs law target ramp sm).step = rampStep law sm.cur target (ms2n ramp fs) := by
  unfold smConfigure; rfl
@[simp] theorem smConfigure_law (fs : Word) (law : Law) (target ramp : Word) (sm : Smoother) :
    (smConfigure fs law target ramp sm).law = law := by
  unfold smConfigure; rfl

/-- Writing one smoother writes nothing but the smoothers. -/
theorem setSmoother_eq (s : State) (p : SmIdx) (sm : Smoother) :
    s.setSmoother p sm = { s with gain := (s.setSmoother p sm).gain, dist := (s.setSmoother p sm).dist } := by
  cases p <;> rfl

theorem exec_cfg_of_ready {s : State} (p : SmIdx) (law : Law) (target ramp : Word) (hm : s.mode = .ready) :
    exec (.cfg p law target ramp) s = .next (s.setSmoother p (smConfigure s.fs law target ramp (s.smoother p))) :=
  exec_of_allowed (.cfg p law target ramp) s (by rw [hm]; rfl)

/-! ### The statements -/

/-- Settles O35: the equations of one advance. -/
theorem advanceTakesOneStep : Obligations.AdvanceTakesOneStep :=
  fun _ => ⟨smNext_of_rem_le_one, smNext_of_lin, smNext_of_log⟩

/-- Settles O34, by induction on the number of advances; the landing is the case of one advance from the state before
the last, which has at most one step left. -/
theorem rampLandsOnTarget : Obligations.RampLandsOnTarget := by
  intro sm n
  refine ⟨iterate_smNext_tgt sm n, toNat_iterate_smNext_rem sm n, fun hpos hle => ?_⟩
  obtain ⟨k, rfl⟩ := Nat.exists_eq_add_of_le' hpos
  exact iterate_smNext_cur hle

/-- Settles O33: CFG writes the named smoother by `smConfigure`, whose step is the one of its law. -/
theorem cfgStartsRamp : Obligations.CfgStartsRamp := by
  intro s p law target ramp hm
  refine ⟨_, exec_cfg_of_ready p law target ramp hm, setSmoother_eq s p _, ?_, ?_, ?_, ?_, ?_, ?_, ?_, ?_, ?_⟩
  · simp
  · simp
  · simp
  · simp
  · intro hzero
    rw [smoother_setSmoother, smConfigure_step, hzero, rampStep_zero]
  · rintro hn rfl
    rw [smoother_setSmoother, smConfigure_step, rampStep_lin _ _ hn]
  · rintro hn rfl
    rw [smoother_setSmoother, smConfigure_step, rampStep_log _ _ hn]
  · rintro rfl
    exact setSmoother_gain_dist s _
  · rintro rfl
    exact setSmoother_dist_gain s _

end Sys2Proof.Machine
end

section
/-! The ramp times that are out of range (40_smoother.md R81): `ms2n` sees only the product that it rounds. A product
that is a NaN or has the sign counts nothing; any other counts by its magnitude alone, and the most from 2^32 on. -/

namespace Sys2Proof.Machine

/-! ### Words that count nothing -/

/-- What `f2u_sat` counts as nothing for its kind or its sign alone (R20). -/
def nanOrSigned (w : Word) : Prop := isNaN w = true ∨ fSign w = true

theorem roundMag_lt (n d : Nat) : roundMag n d < 2 ^ 31 := Nat.lt_of_le_of_lt (roundMag_le n d) infMag_lt

theorem f2uSat_of_nanOrSigned {w : Word} (h : nanOrSigned w) : f2uSat w = 0#32 := by
  have hgt : ¬ fgt w posZero = true := by
    intro hgt
    obtain ⟨hle, hs, -⟩ := (fgt_zero_iff w).1 hgt
    rcases h with hnan | hsign
    · exact absurd ((isNaN_iff w).1 hnan) (Nat.not_lt.2 hle)
    · rw [hs] at hsign
      exact Bool.false_ne_true hsign
  rw [f2uSat, if_neg hgt]

theorem fround_nanOrSigned {w : Word} (h : nanOrSigned w) : nanOrSigned (fround w) := by
  unfold fround
  split
  · exact Or.inl (isNaN_freeNaN _ _ _)
  · next hnan =>
    have hs : fSign w = true := h.resolve_left hnan
    split
    · exact Or.inr hs
    · exact Or.inr ((fSign_packFloat _ _ (roundMag_lt _ _)).trans hs)

/-- A quotient that is no NaN has the sign that the operands' signs give (R15). -/
theorem fdiv_isNaN_or_fSign (a b : Word) :
    isNaN (fdiv a b) = true ∨ fSign (fdiv a b) = (fSign a != fSign b) := by
  unfold fdiv
  split
  · exact Or.inl (isNaN_freeNaN _ _ _)
  · split
    · split
      · exact Or.inl (isNaN_freeNaN _ _ _)
      · exact Or.inr (fSign_packFloat _ _ infMag_lt)
    · split
      · exact Or.inr (fSign_packFloat _ _ (by decide))
      · split
        · split
          · exact Or.inl (isNaN_freeNaN _ _ _)
          · exact Or.inr (fSign_packFloat _ _ infMag_lt)
        · exact Or.inr (fSign_packFloat _ _ (roundMag_lt _ _))

/-- A product that is no NaN has the sign that the operands' signs give (R15). -/
theorem fmul_isNaN_or_fSign (a b : Word) :
    isNaN (fmul a b) = true ∨ fSign (fmul a b) = (fSign a != fSign b) := by
  unfold fmul
  split
  · exact Or.inl (isNaN_freeNaN _ _ _)
  · split
    · split
      · exact Or.inl (isNaN_freeNaN _ _ _)
      · exact Or.inr (fSign_packFloat _ _ infMag_lt)
    · exact Or.inr (fSign_packFloat _ _ (roundMag_lt _ _))

theorem fdiv_nanOrSigned {a b : Word} (ha : nanOrSigned a) (hb : fSign b = false) : nanOrSigned (fdiv a b) := by
  rcases ha with hnan | hs
  · exact Or.inl (isNaN_fdiv a b (Or.inl hnan))
  · exact (fdiv_isNaN_or_fSign a b).imp_right fun hsign => by rw [hsign, hs, hb]; rfl

theorem fmul_nanOrSigned {a b : Word} (ha : nanOrSigned a) (hb : fSign b = false) : nanOrSigned (fmul a b) := by
  rcases ha with hnan | hs
  · exact Or.inl (isNaN_fmul a b (Or.inl hnan))
  · exact (fmul_isNaN_or_fSign a b).imp_right fun hsign => by rw [hsign, hs, hb]; rfl

/-- A time that is a NaN or has the sign counts no sample, at a rate without the sign. -/
theorem ms2n_of_nanOrSigned {ms fs : Word} (h : nanOrSigned ms) (hfs : fSign fs = false) : ms2n ms fs = 0#32 :=
  f2uSat_of_nanOrSigned (fround_nanOrSigned (fmul_nanOrSigned (fdiv_nanOrSigned h rfl) hfs))

theorem fSign_of_negative {w : Word} (h : fgt posZero w = true) : fSign w = true := by
  have hkey : orderKey w < orderKey posZero := by
    simp only [fgt, Bool.and_eq_true, decide_eq_true_eq] at h
    exact h.2
  have hzero : orderKey posZero = 0 := by decide
  by_contra hs
  rw [hzero, orderKey, if_neg hs] at hkey
  omega

/-! ### Where the count saturates (R20) -/

/-- `4294967296.0`, the least number whose count saturates. -/
abbrev countLimit : Word := 0x4F800000#32

theorem fge_countLimit_iff (w : Word) :
    fge w countLimit = true ↔ ¬ nanOrSigned w ∧ fMag countLimit ≤ fMag w := by
  have hn : isNaN countLimit = false := by decide
  have hkey : orderKey countLimit = fMag countLimit := by decide
  have hpos : 0 < fMag countLimit := by decide
  unfold nanOrSigned fge
  rw [hn, hkey]
  cases hs : fSign w with
  | false => simp [orderKey, hs]
  | true =>
    have hbelow : ¬ (fMag countLimit : Int) ≤ orderKey w := by
      rw [orderKey, if_pos hs]
      omega
    simp [hbelow]

theorem fMag_le_of_not_nanOrSigned {w : Word} (h : ¬ nanOrSigned w) : fMag w ≤ infMag :=
  (isNaN_false_iff w).1 (Bool.eq_false_of_not_eq_true (not_or.1 h).1)

theorem eq_packFloat_of_not_nanOrSigned {w : Word} (h : ¬ nanOrSigned w) : w = packFloat false (fMag w) := by
  rw [← Bool.eq_false_of_not_eq_true (not_or.1 h).2, packFloat_fields]

/-- A word that is no NaN and has no sign counts by its magnitude alone. -/
theorem toNat_f2uSat_fround {w : Word} (h : ¬ nanOrSigned w) :
    (f2uSat (fround w)).toNat = countOfMag (roundedMag (fMag w)) := by
  have hle := fMag_le_of_not_nanOrSigned h
  calc (f2uSat (fround w)).toNat = (f2uSat (fround (packFloat false (fMag w)))).toNat := by
        rw [← eq_packFloat_of_not_nanOrSigned h]
    _ = countOfMag (roundedMag (fMag w)) := by
        rw [fround_packFloat _ hle, toNat_f2uSat_packFloat _ (roundedMag_le _)]

theorem count_mono {m m' : Nat} (h : m ≤ m') (h' : m' ≤ infMag) :
    countOfMag (roundedMag m) ≤ countOfMag (roundedMag m') :=
  countOfMag_mono _ _ (roundedMag_mono m m' h h') (roundedMag_le m')

theorem f2uSat_fround_of_limit_le {w : Word} (h : fge w countLimit = true) : f2uSat (fround w) = 0xFFFFFFFF#32 := by
  obtain ⟨hpos, hmag⟩ := (fge_countLimit_iff w).1 h
  have hlimit : countOfMag (roundedMag (fMag countLimit)) = 2 ^ 32 - 1 := by decide +kernel
  have hmost := count_mono hmag (fMag_le_of_not_nanOrSigned hpos)
  have hbound := countOfMag_le (roundedMag (fMag w))
  apply BitVec.eq_of_toNat_eq
  rw [toNat_f2uSat_fround hpos]
  show _ = 4294967295
  omega

/-- Below 2^32 the greatest binary32 is 2^32 - 256, an integer, so the count stays below the saturated one. -/
theorem f2uSat_fround_of_lt_limit {w : Word} (h : fge w countLimit = false) :
    (f2uSat (fround w)).toNat < 4294967295 := by
  by_cases hw : nanOrSigned w
  · rw [f2uSat_of_nanOrSigned (fround_nanOrSigned hw)]
    decide
  · have hmag : fMag w ≤ fMag countLimit - 1 := by
      have hlt : ¬ fMag countLimit ≤ fMag w := fun hle =>
        Bool.eq_false_iff.1 h ((fge_countLimit_iff w).2 ⟨hw, hle⟩)
      omega
    have hbelow : countOfMag (roundedMag (fMag countLimit - 1)) = 2 ^ 32 - 256 := by decide +kernel
    have hcount := count_mono hmag (by decide)
    rw [toNat_f2uSat_fround hw]
    omega

/-- An infinite time is an infinite number of samples, at every positive sample rate. -/
theorem samples_of_posInf {fs : Word} (hfs : fgt fs posZero = true) :
    fmul (fdiv posInf thousand) fs = posInf := by
  obtain ⟨hle, hs, hpos⟩ := (fgt_zero_iff fs).1 hfs
  have hdiv : fdiv posInf thousand = posInf := by decide
  have hnan : isNaN posInf = false := by decide
  have hinf : isInf posInf = true := by decide
  have hmag : ¬ fMag posInf = 0 := by decide
  have hpack : packFloat (fSign posInf) infMag = posInf := by decide
  rw [hdiv, fmul, hnan, (isNaN_false_iff fs).2 hle, hinf, hs]
  simp [hmag, hpos.ne', hpack]

/-! ### The statement -/

/-- Settles O36: a NaN and a negative time keep their kind or their sign through every operation; for the others the
count compares with that of 2^32, since counts grow with the magnitude. -/
theorem badRampTimesCount : Obligations.BadRampTimesCount := by
  intro ramp fs hfs _
  obtain ⟨-, hs, -⟩ := (fgt_zero_iff fs).1 hfs
  refine ⟨fun hnan => ?_, fun hneg => ?_, ?_, f2uSat_fround_of_limit_le, f2uSat_fround_of_lt_limit⟩
  · exact ms2n_of_nanOrSigned (Or.inl hnan) hs
  · exact ms2n_of_nanOrSigned (Or.inr (fSign_of_negative hneg)) hs
  · rintro rfl
    rw [ms2n, samples_of_posInf hfs]
    exact f2uSat_fround_of_limit_le (by decide)

end Sys2Proof.Machine
end

section
/-! NaN in the cascades (41_biquad_filterbank.md): the output `y` of a stage is an operand of both its registers (R86), so
a NaN that reaches one stage poisons it and the stage behind it; RESET clears the cascades in use (R91). -/

namespace Sys2Proof.Machine

/-! ### One stage (R86, R88) -/

/-- A stage whose two registers hold a NaN (R88). -/
def stagePoisoned (st : Stage) : Prop := isNaN st.s1 = true ∧ isNaN st.s2 = true

theorem bankPoisoned_iff (b : Bank) :
    bankPoisoned b = true
      ↔ stagePoisoned b.st0 ∧ stagePoisoned b.st1 ∧ stagePoisoned b.st2 ∧ stagePoisoned b.st3 := by
  simp only [bankPoisoned, stagePoisoned, Bool.and_eq_true, and_assoc]

theorem isNaN_bqOut (k : Coef) {st : Stage} {x : Word} (h : isNaN x = true ∨ isNaN st.s1 = true) :
    isNaN (bqOut k st x) = true :=
  isNaN_fadd _ _ (h.imp_left fun hx => isNaN_fmul _ _ (Or.inr hx))

/-- Both new registers subtract a multiple of the output, so a NaN output poisons the stage. -/
theorem bqNext_poisoned (k : Coef) {st : Stage} {x : Word} (h : isNaN (bqOut k st x) = true) :
    stagePoisoned (bqNext k st x) := by
  have hdiff (a b : Word) : isNaN (fsub a (fmul b (bqOut k st x))) = true :=
    isNaN_fsub _ _ (Or.inr (isNaN_fmul _ _ (Or.inr h)))
  exact ⟨isNaN_fadd _ _ (Or.inl (hdiff _ _)), hdiff _ _⟩

/-! ### The cascade of a channel (R88, R90) -/

/-- The output of each stage is the sample of the next one, so a NaN runs through all four. -/
theorem isNaN_fbOut_and_fbNext_poisoned (k : BankCoef) {b : Bank} {x : Word}
    (h : isNaN x = true ∨ isNaN b.st0.s1 = true) :
    isNaN (fbOut k b x) = true ∧ bankPoisoned (fbNext k b x) = true := by
  have htap1 : isNaN (fbTap1 k b x) = true := isNaN_bqOut k.k0 h
  have htap2 : isNaN (fbTap2 k b x) = true := isNaN_bqOut k.k1 (Or.inl htap1)
  have htap3 : isNaN (fbTap3 k b x) = true := isNaN_bqOut k.k2 (Or.inl htap2)
  have hout : isNaN (fbOut k b x) = true := isNaN_bqOut k.k3 (Or.inl htap3)
  exact ⟨hout, (bankPoisoned_iff _).2
    ⟨bqNext_poisoned k.k0 htap1, bqNext_poisoned k.k1 htap2, bqNext_poisoned k.k2 htap3, bqNext_poisoned k.k3 hout⟩⟩

theorem fbNext_poisoned_of_poisoned (k : BankCoef) {b : Bank} (x : Word) (h : bankPoisoned b = true) :
    bankPoisoned (fbNext k b x) = true := by
  obtain ⟨⟨hs1, -⟩, -⟩ := (bankPoisoned_iff b).1 h
  exact (isNaN_fbOut_and_fbNext_poisoned k (Or.inr hs1)).2

theorem bankAfter_poisoned (s : State) (xs : List Word) (c : Nat) {b : Bank} (h : bankPoisoned b = true) :
    bankPoisoned (bankAfter s xs c b) = true := by
  unfold bankAfter
  split
  · exact fbNext_poisoned_of_poisoned _ _ h
  · exact h

/-- The shaper takes the sign of a NaN as -1.0 (R96 (d)). -/
theorem wsShape_of_isNaN {v : Word} (h : isNaN v = true) (g : Word) : wsShape g v = fmul negOne g := by
  have hcomp : fge v posZero = false := fge_false_of_isNaN (Or.inl h)
  rw [wsShape, shapeSign, hcomp, if_neg Bool.false_ne_true]

/-! ### The cascades after a frame and after RESET (R91, R92, R122) -/

theorem frameNext_banks_getElem? (s : State) (xs : List Word) (c : Nat) :
    (frameNext s xs).banks[c]?
      = (s.banks[c]?).map fun b => if frameEngaged s then bankAfter s xs c b else b := by
  rw [frameNext_banks]
  split
  · exact List.getElem?_mapIdx
  · exact Option.map_id'.symm

theorem fbReset_eq_zero (b : Bank) : fbReset b = Bank.zero := rfl

theorem resetEffects_banks_getElem? (s : State) (c : Nat) :
    (resetEffects s).banks[c]? = (s.banks[c]?).map fun b => if c < s.nch.toNat then Bank.zero else b := by
  simp only [resetEffects_banks, resetBanks_banks, List.getElem?_mapIdx, fbReset_eq_zero]

theorem exec_reset_of_ready {s : State} (hm : s.mode = .ready) : exec .reset s = .next (resetEffects s) :=
  exec_of_allowed .reset s (by rw [hm]; rfl)

/-! ### The statements -/

/-- Settles O38: the NaN runs through the four stages, and the shaper takes it as -1.0. -/
theorem naNPoisonsCascade : Obligations.NaNPoisonsCascade := by
  intro k b x g h
  obtain ⟨hout, hnext⟩ := isNaN_fbOut_and_fbNext_poisoned k h
  exact ⟨hout, hnext, wsShape_of_isNaN hout g⟩

/-- Settles O39: a frame moves a cascade by `FB.PROC`, whose first stage reads the NaN it holds, or leaves it; RESET
writes zeros over every cascade in use. -/
theorem poisonLastsUntilReset : Obligations.PoisonLastsUntilReset := by
  intro s c b hb hpoisoned
  refine ⟨fun xs => ?_, fun hm hc => ?_⟩
  · refine ⟨_, by rw [frameNext_banks_getElem?, hb]; rfl, ?_⟩
    split
    · exact bankAfter_poisoned s xs c hpoisoned
    · exact hpoisoned
  · refine ⟨_, exec_reset_of_ready hm, ?_⟩
    rw [resetEffects_banks_getElem?, hb, Option.map_some, if_pos hc]

end Sys2Proof.Machine
end

section
/-! The waveshaper (42_waveshaper.md): one product with plus or minus one, whose value is the gain with the sign of the
factor. -/

namespace Sys2Proof.Machine

/-! ### The two cases of the sign (R94, R96) -/

theorem wsShape_eq_fmul_one {v : Word} (h : fge v posZero = true) (g : Word) : wsShape g v = fmul one g := by
  rw [wsShape, shapeSign, if_pos h]

theorem wsShape_eq_fmul_negOne {v : Word} (h : ¬ fge v posZero = true) (g : Word) : wsShape g v = fmul negOne g := by
  rw [wsShape, shapeSign, if_neg h]

/-- The product is exact: a gain that is no NaN, infinite or not, keeps its magnitude (R94). -/
theorem wsShape_eq_gain_or_fneg (v : Word) {g : Word} (hg : isNaN g = false) :
    wsShape g v = if fge v posZero = true then g else fneg g := by
  split
  next h => rw [wsShape_eq_fmul_one h, fmul_one g hg]
  next h => rw [wsShape_eq_fmul_negOne h, fmul_negOne g hg]

/-- A NaN gain is an operand of the product, whatever the sample (R96 (e)). -/
theorem isNaN_wsShape (v : Word) {g : Word} (hg : isNaN g = true) : isNaN (wsShape g v) = true :=
  isNaN_fmul (shapeSign v) g (Or.inr hg)

/-! ### The statement -/

/-- Settles O41: the shaper is by definition the product with the sign of the sample, and a product with plus or minus
one is exact or, for a NaN gain, some NaN. -/
theorem hardClipIsExact : Obligations.HardClipIsExact := by
  intro v g
  exact ⟨rfl, wsShape_eq_gain_or_fneg v, isNaN_wsShape v⟩

end Sys2Proof.Machine
end

section
/-! The fade multiplier (43_silence_fade.md R100): a count as a magnitude, the quotient of two counts, and what is left
of 1.0 when that quotient is taken from it. -/

namespace Sys2Proof.Machine

/-! ### Counts as magnitudes (R18) -/

/-- The magnitude of the binary32 nearest a count. -/
def countMag (n : Nat) : Nat := roundMag (n * 2 ^ 149) 1

theorem countMag_eq (n : Nat) : countMag n = roundMag (n * 2 ^ 149) 1 := rfl

theorem u2f_eq_packFloat (n : Word) : u2f n = packFloat false (countMag n.toNat) := rfl

theorem countMag_mono {n n' : Nat} (h : n ≤ n') : countMag n ≤ countMag n' :=
  roundMag_mono _ _ _ _ Nat.one_pos Nat.one_pos (Nat.mul_le_mul_right _ (Nat.mul_le_mul_right _ h))

theorem countMag_zero : countMag 0 = 0 := by
  rw [countMag_eq, Nat.zero_mul, roundMag_zero Nat.one_pos]

theorem countMag_one : countMag 1 = fMag one := by decide

theorem countMag_pos {n : Nat} (h : 0 < n) : 0 < countMag n :=
  calc 0 < fMag one := by decide
    _ = countMag 1 := countMag_one.symm
    _ ≤ countMag n := countMag_mono h

/-- A count of 32 bits is far from overflow. -/
theorem countMag_lt_infMag (n : Word) : countMag n.toNat < infMag :=
  calc countMag n.toNat ≤ countMag (2 ^ 32) := countMag_mono n.isLt.le
    _ < infMag := by decide

/-- Up to 2^24 itself the conversion is exact. -/
theorem magUnits_countMag {n : Nat} (h : n ≤ 2 ^ 24) : magUnits (countMag n) = n * 2 ^ 149 := by
  rcases Nat.lt_or_eq_of_le h with hlt | rfl
  · obtain ⟨m, hm, hunits⟩ := exists_mag_of_count n hlt
    have hexact : roundMag (magUnits m) 1 = m := by simpa using roundMag_magUnits m 1 hm Nat.one_pos
    rw [countMag_eq, ← hunits, hexact]
  · decide

/-! ### The quotient and the difference -/

/-- The magnitude of the quotient of two counts. -/
def ratioMag (k n : Nat) : Nat := roundMag (magUnits (countMag k) * 2 ^ 149) (magUnits (countMag n))

theorem ratioMag_eq (k n : Nat) :
    ratioMag k n = roundMag (magUnits (countMag k) * 2 ^ 149) (magUnits (countMag n)) := rfl

theorem fdiv_u2f (k : Word) {n : Word} (hn : n ≠ 0#32) :
    fdiv (u2f k) (u2f n) = packFloat false (ratioMag k.toNat n.toNat) := by
  have hpos : 0 < countMag n.toNat := countMag_pos (by bv_omega)
  rw [u2f_eq_packFloat, u2f_eq_packFloat, ratioMag_eq]
  exact fdiv_packFloat _ _ (countMag_lt_infMag k) (countMag_lt_infMag n) hpos.ne'

theorem ratioMag_zero {n : Nat} (hn : 0 < n) : ratioMag 0 n = 0 := by
  rw [ratioMag_eq, countMag_zero, magUnits_zero, Nat.zero_mul, roundMag_zero (magUnits_pos _ (countMag_pos hn))]

/-- The greatest binary32 below 1.0 is `1 - 2^-24`. -/
theorem magUnits_below_one : magUnits (fMag one - 1) = (2 ^ 24 - 1) * 2 ^ 125 := by decide

/-- With at most 2^24 frames the exact quotient is at most `1 - 2^-24`, a binary32, so rounding does not reach 1.0. -/
theorem ratioMag_le_below_one {k n : Nat} (hk : k < n) (hn : n ≤ 2 ^ 24) : ratioMag k n ≤ fMag one - 1 := by
  have hden : 0 < magUnits (countMag n) := magUnits_pos _ (countMag_pos (by omega))
  have hexact : (k * 2 ^ 149 * 2 ^ 149) * 2 ^ 149 ≤ ((2 ^ 24 - 1) * 2 ^ 125 * 2 ^ 149) * (n * 2 ^ 149) := by omega
  calc ratioMag k n
      ≤ roundMag (magUnits (fMag one - 1) * 2 ^ 149) (2 ^ 149) := by
        refine roundMag_mono _ _ _ _ hden (by positivity) ?_
        rw [magUnits_countMag (by omega), magUnits_countMag hn, magUnits_below_one]
        exact hexact
    _ = fMag one - 1 := roundMag_magUnits _ _ (by decide) (by positivity)

theorem magUnits_lt_of_le_below_one {q : Nat} (hq : q ≤ fMag one - 1) : magUnits q < 2 ^ 149 := by
  have hmono := magUnits_mono q _ hq
  rw [magUnits_below_one] at hmono
  omega

/-- A sum of two finite numbers that is above zero, rounded from its exact value. -/
theorem fadd_of_pos_sum {a b : Word} {d : Nat} (ha : fMag a < infMag) (hb : fMag b < infMag) (hd : 0 < d)
    (hsum : signedUnits a + signedUnits b = d) : fadd a b = packFloat false (roundMag d 1) := by
  have hnan : isNaN a = false ∧ isNaN b = false := ⟨(isNaN_false_iff a).2 ha.le, (isNaN_false_iff b).2 hb.le⟩
  have hinf : isInf a = false ∧ isInf b = false := ⟨decide_eq_false ha.ne, decide_eq_false hb.ne⟩
  have hsign : decide ((d : Int) < 0) = false := decide_eq_false (by omega)
  rw [fadd, hsum, hsign]
  simp [hnan, hinf, hd.ne']

theorem signedUnits_fneg_packFloat {q : Nat} (hq : q < 2 ^ 31) :
    signedUnits (fneg (packFloat false q)) = -(magUnits q : Int) := by
  rw [signedUnits, fSign_fneg, fSign_packFloat _ _ hq, Bool.not_false, if_pos rfl, units, fMag_fneg,
    fMag_packFloat _ _ hq]

/-- What is left of 1.0 when a number below it is taken away. -/
theorem fsub_one_packFloat {q : Nat} (hq : q ≤ fMag one - 1) :
    fsub one (packFloat false q) = packFloat false (roundMag (2 ^ 149 - magUnits q) 1) := by
  have hunits := magUnits_lt_of_le_below_one hq
  have hqinf : q < infMag := lt_of_le_of_lt hq (by decide)
  have hq31 : q < 2 ^ 31 := Nat.lt_trans hqinf infMag_lt
  have hnan : isNaN one = false := by decide
  have hinf : isInf one = false := by decide
  have hone : signedUnits one = 2 ^ 149 := by decide
  have hfsub : fsub one (packFloat false q) = fadd one (fneg (packFloat false q)) := by
    simp [fsub, hnan, hinf, isNaN_packFloat _ _ hqinf.le]
  rw [hfsub]
  refine fadd_of_pos_sum (by decide) ?finite (Nat.sub_pos_of_lt hunits) ?sum
  case finite => rw [fMag_fneg, fMag_packFloat _ _ hq31]; exact hqinf
  case sum => rw [hone, signedUnits_fneg_packFloat hq31]; omega

/-! ### The multiplier (R100) -/

theorem fadeMultiplier_at_start {s : State} (h : s.silCnt = s.fadeStart) (hlen : s.fadeLen ≠ 0#32) :
    fadeMultiplier s = one := by
  have hpos : 0 < s.fadeLen.toNat := by bv_omega
  have hzero : (0#32 : Word).toNat = 0 := rfl
  have hone : fsub one (packFloat false 0) = one := by decide
  rw [fadeMultiplier, h, BitVec.sub_self, fdiv_u2f _ hlen, hzero, ratioMag_zero hpos, hone]

/-- At least one unit is left of 1.0, and at most all of it. -/
theorem fadeMultiplier_eq_packFloat {s : State} (hk : (s.silCnt - s.fadeStart).toNat < s.fadeLen.toNat)
    (hlen : s.fadeLen.toNat ≤ 2 ^ 24) :
    ∃ m, 0 < m ∧ m ≤ fMag one ∧ fadeMultiplier s = packFloat false m := by
  have hne : s.fadeLen ≠ 0#32 := by bv_omega
  have hratio := ratioMag_le_below_one hk hlen
  refine ⟨_, ?pos, ?le, by rw [fadeMultiplier, fdiv_u2f _ hne, fsub_one_packFloat hratio]⟩
  case pos =>
    have hleast : roundMag 1 1 = 1 := by decide
    have hleft := Nat.sub_pos_of_lt (magUnits_lt_of_le_below_one hratio)
    have hmono := roundMag_mono 1 1 _ 1 Nat.one_pos Nat.one_pos (Nat.mul_le_mul_right 1 hleft)
    omega
  case le =>
    rw [← countMag_one, countMag_eq]
    exact roundMag_mono _ _ _ _ Nat.one_pos Nat.one_pos (Nat.mul_le_mul_right _ (by omega))

theorem fgt_packFloat_zero {m : Nat} (hpos : 0 < m) (hm : m ≤ infMag) : fgt (packFloat false m) posZero = true := by
  have hm31 : m < 2 ^ 31 := Nat.lt_of_le_of_lt hm infMag_lt
  rw [fgt_zero_iff, fMag_packFloat _ _ hm31, fSign_packFloat _ _ hm31]
  exact ⟨hm, rfl, hpos⟩

theorem fge_one_packFloat {m : Nat} (hm : m ≤ fMag one) : fge one (packFloat false m) = true := by
  have hinf : m ≤ infMag := hm.trans (by decide)
  have hm31 : m < 2 ^ 31 := Nat.lt_of_le_of_lt hinf infMag_lt
  have hnan : isNaN one = false := by decide
  have hkey : orderKey one = fMag one := by decide
  have hkeym : orderKey (packFloat false m) = m := by
    rw [orderKey, fSign_packFloat _ _ hm31, fMag_packFloat _ _ hm31, if_neg Bool.false_ne_true]
  simp [fge, hnan, isNaN_packFloat _ _ hinf, hkey, hkeym, hm]

end Sys2Proof.Machine
end

section
/-! The phases of the silence fade and its counter (43_silence_fade.md R99 to R106). -/

namespace Sys2Proof.Machine

/-! ### The phases (R99) -/

theorem phase_eq_active {s : State} (h : s.silCnt.toNat < s.fadeStart.toNat) : s.phase = .active := if_pos h

theorem phase_eq_fading {s : State} (hstart : s.fadeStart.toNat ≤ s.silCnt.toNat)
    (hend : s.silCnt.toNat < s.fadeEnd.toNat) : s.phase = .fading := by
  rw [State.phase, if_neg (Nat.not_lt.2 hstart), if_pos hend]

theorem phase_eq_muted {s : State} (hstart : s.fadeStart.toNat ≤ s.silCnt.toNat)
    (hend : s.fadeEnd.toNat ≤ s.silCnt.toNat) : s.phase = .muted := by
  rw [State.phase, if_neg (Nat.not_lt.2 hstart), if_neg (Nat.not_lt.2 hend)]

theorem bounds_of_fading {s : State} (h : s.phase = .fading) :
    s.fadeStart.toNat ≤ s.silCnt.toNat ∧ s.silCnt.toNat < s.fadeEnd.toNat := by
  unfold State.phase at h
  split at h
  · cases h
  · next hstart =>
    split at h
    · next hend => exact ⟨Nat.not_lt.1 hstart, hend⟩
    · cases h

theorem frameOut_of_fading {s : State} (xs : List Word) (h : s.phase = .fading) :
    frameOut s xs
      = (frameFiltered s xs).map fun v => fmul (wsShape (frameGain s) v) (fadeMultiplier s) := by
  have hf : fadeSample s = fun y => fmul y (fadeMultiplier s) := by funext y; rw [fadeSample, h]
  rw [frameOut, sfGain, List.map_map, hf]
  rfl

/-- The frames that the fade has gone on for, as the multiplier's formula counts them (R100). -/
theorem toNat_silCnt_sub_fadeStart {s : State} (h : s.fadeStart.toNat ≤ s.silCnt.toNat) :
    (s.silCnt - s.fadeStart).toNat = s.silCnt.toNat - s.fadeStart.toNat :=
  BitVec.toNat_sub_of_le h

theorem silCnt_sub_fadeStart_eq_ofNat {s : State} (h : s.fadeStart.toNat ≤ s.silCnt.toNat) :
    s.silCnt - s.fadeStart = BitVec.ofNat 32 (s.silCnt.toNat - s.fadeStart.toNat) := by
  rw [← toNat_silCnt_sub_fadeStart h, BitVec.ofNat_toNat, BitVec.setWidth_eq]

/-! ### Silent samples (R103) -/

/-- The zeros of both signs are silent, and nothing else is. -/
theorem sampleSilent_iff (x : Word) : sampleSilent x = true ↔ x = posZero ∨ x = negZero := by
  constructor
  · intro h
    have hz : isNaN posZero = false := by decide
    have hkey : orderKey posZero = 0 := by decide
    simp only [sampleSilent, feq, hz, hkey, Bool.not_false, Bool.and_true, Bool.and_eq_true, Bool.not_eq_true',
      decide_eq_true_eq] at h
    obtain ⟨hnan, hx⟩ := h
    refine (nonneg_cases ((fge_zero_iff x).2 ⟨hnan, hx.ge⟩)).imp_left fun hs => ?_
    have hmag : fMag x = 0 := by
      rw [orderKey_of_nonneg hx.ge] at hx
      omega
    have hzero : packFloat false 0 = posZero := by decide
    rw [← packFloat_fields x, hs, hmag, hzero]
  · rintro (rfl | rfl)
    · decide
    · decide

theorem frameSilent_false_of_mem {xs : List Word} {x : Word} (hx : x ∈ xs) (hpos : x ≠ posZero) (hneg : x ≠ negZero) :
    frameSilent xs = false := by
  rw [Bool.eq_false_iff]
  intro hsilent
  rcases (sampleSilent_iff x).1 (List.all_eq_true.1 hsilent x hx) with h | h
  · exact hpos h
  · exact hneg h

/-! ### Silent runs (R101, R104) -/

theorem framesAfter_sameSession (s : State) (frames : List (List Word)) : SameSession s (framesAfter s frames) :=
  framesAfter_keeps (SameSession s) (fun t xs h => h.trans (frameNext_sameSession t xs)) frames s (SameSession.refl s)

/-- A silent run counts its frames, up to `FADE_END`. -/
theorem framesAfter_silCnt_of_silent {frames : List (List Word)} (hsilent : ∀ xs ∈ frames, frameSilent xs = true)
    {s : State} (hle : s.silCnt.toNat ≤ s.fadeEnd.toNat) :
    (framesAfter s frames).silCnt.toNat = min (s.silCnt.toNat + frames.length) s.fadeEnd.toNat := by
  induction frames generalizing s with
  | nil => exact (Nat.min_eq_left hle).symm
  | cons xs rest ih =>
    obtain ⟨hxs, hrest⟩ := List.forall_mem_cons.1 hsilent
    have hnext := frameNext_silCnt_of_silent s xs hxs
    have hend := frameNext_fadeEnd s xs
    rw [framesAfter_cons, ih hrest (by rw [hnext, hend]; exact min_le_right _ _), hnext, hend, List.length_cons]
    omega

/-- A silent frame does not leave the Muted phase: it moves the counter to its bound `FADE_END`. -/
theorem frameNext_muted_of_silent {s : State} {xs : List Word}
    (hend : s.fadeEnd.toNat ≤ s.silCnt.toNat) (hsilent : frameSilent xs = true) :
    (frameNext s xs).fadeEnd.toNat ≤ (frameNext s xs).silCnt.toNat := by
  rw [frameNext_silCnt_of_silent s xs hsilent, frameNext_fadeEnd]
  omega

theorem phase_eq_muted_of_ordered {s : State} (ho : s.thresholdsOrdered) (hend : s.fadeEnd.toNat ≤ s.silCnt.toNat) :
    s.phase = .muted :=
  phase_eq_muted (Nat.le_trans ho hend) hend

theorem framesOut_of_muted_silent {frames : List (List Word)} (hsilent : ∀ xs ∈ frames, frameSilent xs = true)
    {s : State} (ho : s.thresholdsOrdered) (hend : s.fadeEnd.toNat ≤ s.silCnt.toNat) :
    framesOut s frames = List.replicate frames.flatten.length 0#32 := by
  induction frames generalizing s with
  | nil => rfl
  | cons xs rest ih =>
    obtain ⟨hxs, hrest⟩ := List.forall_mem_cons.1 hsilent
    rw [framesOut_cons, frameOut_of_muted s xs (phase_eq_muted_of_ordered ho hend),
      ih hrest ((frameNext_sameSession s xs).thresholdsOrdered ho) (frameNext_muted_of_silent hend hxs),
      List.replicate_append_replicate, List.flatten_cons, List.length_append]

/-! ### A fade of 2^25 frames (log entry 11) -/

/-- In `READY` the silence counter stands in one clause of the invariant only. -/
theorem State.sound.setSilCnt {s : State} (h : s.sound) (hm : s.mode = .ready) {n : Word}
    (hn : n.toNat ≤ s.fadeEnd.toNat) : State.sound { s with silCnt := n } := by
  obtain ⟨⟨hparams, hsize, hnch, hzero, -, hlen⟩, hrest⟩ := (sound_iff_of_ready hm).1 h
  exact (sound_iff_of_ready (s := { s with silCnt := n }) hm).2 ⟨⟨hparams, hsize, hnch, hzero, hn, hlen⟩, hrest⟩

/-- A sample rate of 2^25 hertz, which INIT accepts: with fade times of one and two seconds it makes a fade of 2^25
frames. -/
abbrev longFadeRate : Word := 0x4C000000#32

/-- This hardware after INIT at that rate, with one channel and the counter on the last frame of the fade. -/
def endOfLongFade : State := { initEffects 1 longFadeRate State.reset with silCnt := 0x03FFFFFF#32 }

theorem configRefused_longFadeRate : configRefused State.reset.params.maxch 1 longFadeRate = false := by
  have hone : 1 ≤ State.reset.params.maxch := Nat.le_add_left _ _
  exact (configRefused_false_iff _ _ _).2 ⟨by decide, hone, by decide, by decide⟩

theorem endOfLongFade_fadeStart : endOfLongFade.fadeStart = 0x02000000#32 := by
  have hcount : ms2n 0x447A0000#32 longFadeRate = 0x02000000#32 := by decide
  exact (initEffects_fadeStart State.reset 1 longFadeRate).trans hcount

theorem endOfLongFade_fadeEnd : endOfLongFade.fadeEnd = 0x04000000#32 := by
  have hcount : ms2n 0x44FA0000#32 longFadeRate = 0x04000000#32 := by decide
  exact (initEffects_fadeEnd State.reset 1 longFadeRate).trans hcount

theorem endOfLongFade_sound : endOfLongFade.sound := by
  have hinit : (initEffects 1 longFadeRate State.reset).sound :=
    initEffects_sound (powerOn_sound paramsSound_config) rfl configRefused_longFadeRate
  refine hinit.setSilCnt (initEffects_mode _ _ _) ?_
  have hend : (initEffects 1 longFadeRate State.reset).fadeEnd = 0x04000000#32 := endOfLongFade_fadeEnd
  rw [hend]
  decide

theorem endOfLongFade_thresholdsOrdered : endOfLongFade.thresholdsOrdered := by
  rw [State.thresholdsOrdered, endOfLongFade_fadeStart, endOfLongFade_fadeEnd]
  decide

theorem endOfLongFade_phase : endOfLongFade.phase = .fading := by
  refine phase_eq_fading ?_ ?_
  · rw [endOfLongFade_fadeStart]; decide
  · rw [endOfLongFade_fadeEnd]; decide

/-- `2^25 - 1` frames of `2^25` convert to the same binary32, so the quotient is 1.0 and nothing is left of it. -/
theorem fadeMultiplier_endOfLongFade : fadeMultiplier endOfLongFade = posZero := by
  have hlen : endOfLongFade.fadeLen = endOfLongFade.fadeEnd - endOfLongFade.fadeStart := by
    obtain ⟨-, -, -, -, -, hlen⟩ := endOfLongFade_sound.registersSound
    exact hlen
  have hsil : endOfLongFade.silCnt = 0x03FFFFFF#32 := rfl
  have hconv : u2f (0x03FFFFFF#32 - 0x02000000#32) = u2f (0x04000000#32 - 0x02000000#32) := by decide
  have hone : fdiv (u2f (0x04000000#32 - 0x02000000#32)) (u2f (0x04000000#32 - 0x02000000#32)) = one := by
    decide
  have hnone : fsub one one = posZero := by decide
  rw [fadeMultiplier, hlen, hsil, endOfLongFade_fadeStart, endOfLongFade_fadeEnd, hconv, hone, hnone]

end Sys2Proof.Machine
end

section
/-! The statements about the silence fade (43_silence_fade.md). -/

namespace Sys2Proof.Machine

/-- Settles O43: each operation of `ms2n` is monotone in the magnitudes (`ms2n_mono`). -/
theorem sampleCountIsMonotone : Obligations.SampleCountIsMonotone :=
  fun _ _ _ h0 h hfin hfs hinf => ms2n_mono h0 h hfin hfs hinf

/-- Settles O45: the run counts its frames up to `FADE_END`, and the counter tells the phase of frame `k`. -/
theorem silenceFadesToZero : Obligations.SilenceFadesToZero := by
  intro s frames hzero ho hsilent k xs hk
  have hcount : (framesAfter s (frames.take k)).silCnt.toNat = min k s.fadeEnd.toNat := by
    obtain ⟨hlt, -⟩ := List.getElem?_eq_some_iff.1 hk
    have hs0 : s.silCnt.toNat = 0 := by rw [hzero]; rfl
    have hrun := framesAfter_silCnt_of_silent (fun ys hys => hsilent ys (List.mem_of_mem_take hys))
      (s := s) (frames := frames.take k) (by omega)
    rw [hrun, hs0, List.length_take, Nat.zero_add, Nat.min_eq_left hlt.le]
  obtain ⟨-, -, hstart, hend, hlen⟩ := framesAfter_sameSession s (frames.take k)
  generalize framesAfter s (frames.take k) = t at hcount hstart hend hlen ⊢
  rw [State.thresholdsOrdered] at ho
  refine ⟨hcount, fun hactive => ?active, fun hge hlt => ?fading, fun hmuted => ?muted⟩
  case active => exact frameOut_of_active t xs (phase_eq_active (by rw [hcount, hstart]; omega))
  case fading =>
    have hcnt : t.silCnt.toNat = k := by omega
    have hbegun : t.fadeStart.toNat ≤ t.silCnt.toNat := by rw [hcnt, hstart]; exact hge
    have hphase : t.phase = .fading := phase_eq_fading hbegun (by rw [hcnt, hend]; exact hlt)
    rw [frameOut_of_fading xs hphase, fadeMultiplier, silCnt_sub_fadeStart_eq_ofNat hbegun, hcnt, hstart, hlen]
  case muted =>
    exact frameOut_of_muted t xs (phase_eq_muted (by rw [hcount, hstart]; omega) (by rw [hcount, hend]; omega))

/-- Settles O46: a sample that is no zero makes the frame not silent, and a counter of 0 is below any `FADE_START`
but 0. -/
theorem attackIsInstantaneous : Obligations.AttackIsInstantaneous := by
  intro s xs ys x hx hpos hneg
  have hclear : (frameNext s xs).silCnt = 0#32 :=
    frameNext_silCnt_of_not_silent s xs (frameSilent_false_of_mem hx hpos hneg)
  refine ⟨hclear, fun hstart => frameOut_of_active _ ys (phase_eq_active ?_)⟩
  rw [hclear, frameNext_fadeStart]
  exact hstart

/-- Settles O47: RESET puts the counter at `FADE_END`, the Muted phase, which no silent frame leaves. -/
theorem resetStaysMutedOnSilence : Obligations.ResetStaysMutedOnSilence := by
  intro s t hm ho h
  rw [exec_reset_of_ready hm] at h
  injection h with h
  subst h
  have ho' : (resetEffects s).thresholdsOrdered := ho
  exact ⟨fun xs => frameOut_of_muted _ xs (phase_eq_muted_of_ordered ho' le_rfl),
    fun frames hsilent => framesOut_of_muted_silent hsilent ho' le_rfl⟩

/-- Settles O48: no frame of the fade has gone by, and 1.0 less a zero quotient is 1.0. -/
theorem fadeStartsAtUnity : Obligations.FadeStartsAtUnity := fun _ h hlen => fadeMultiplier_at_start h hlen

/-- Settles O49: the quotient of the counts stays below 1.0 when it is rounded. -/
theorem shortFadeStaysAboveZero : Obligations.ShortFadeStaysAboveZero := by
  intro s hphase ho hlen hshort
  obtain ⟨hstart, hend⟩ := bounds_of_fading hphase
  have hcount : (s.silCnt - s.fadeStart).toNat < s.fadeLen.toNat := by
    rw [hlen, toNat_silCnt_sub_fadeStart hstart, BitVec.toNat_sub_of_le ho]
    omega
  obtain ⟨m, hpos, hle, hmul⟩ := fadeMultiplier_eq_packFloat hcount hshort
  rw [hmul]
  exact ⟨fgt_packFloat_zero hpos (hle.trans (by decide)), fge_one_packFloat hle⟩

/-- Refutes O50: in a fade of 2^25 frames, which INIT sets up at a sample rate of 2^25 hertz, the multiplier of the
last frame is +0.0. -/
theorem not_fadeMultiplierNeverZero : ¬ Obligations.FadeMultiplierNeverZero := by
  intro h
  have hne := h endOfLongFade endOfLongFade_sound endOfLongFade_thresholdsOrdered endOfLongFade_phase
  rw [fadeMultiplier_endOfLongFade] at hne
  exact absurd hne (by decide)

end Sys2Proof.Machine
end

section
/-! One frame of the pipeline (44_pipeline.md R108 to R111): the values it takes from the smoothers, what its outputs
and cascades depend on, and the frames that bypass the filter bank. -/

namespace Sys2Proof.Machine

/-! ### The gain and the engage decision (R108 steps 1 and 2, R109) -/

theorem frameGain_eq (s : State) : frameGain s = (smNext s.gain).cur := rfl

theorem frameEngaged_eq (s : State) : frameEngaged s = fgt s.dist.cur posZero := rfl

/-- After a CFG without ramp steps the next advance is on the new target (R77, R146). -/
theorem smNext_smConfigure_cur {fs ramp : Word} (hramp : ms2n ramp fs = 0#32) (law : Law) (target : Word)
    (sm : Smoother) : (smNext (smConfigure fs law target ramp sm)).cur = target := by
  have hrem : (smConfigure fs law target ramp sm).rem.toNat ≤ 1 := by
    rw [smConfigure_rem, hramp]
    exact Nat.zero_le 1
  rw [smNext_of_rem_le_one hrem, smConfigure_tgt]

/-! ### The fade of a sample in each phase (R99, R100) -/

theorem fadeSample_of_active {s : State} (h : s.phase = .active) (y : Word) : fadeSample s y = y := by
  rw [fadeSample, h]

theorem fadeSample_of_fading {s : State} (h : s.phase = .fading) (y : Word) :
    fadeSample s y = fmul y (fadeMultiplier s) := by
  rw [fadeSample, h]

theorem fadeSample_of_muted {s : State} (h : s.phase = .muted) (y : Word) : fadeSample s y = posZero := by
  rw [fadeSample, h]

/-- The fade reads the silence counter and the thresholds, and no other register. -/
theorem fadeSample_congr {s s' : State} (hsil : s'.silCnt = s.silCnt) (hstart : s'.fadeStart = s.fadeStart)
    (hend : s'.fadeEnd = s.fadeEnd) (hlen : s'.fadeLen = s.fadeLen) : fadeSample s' = fadeSample s := by
  funext y
  simp only [fadeSample, State.phase, fadeMultiplier, hsil, hstart, hend, hlen]

/-! ### What a channel reads (R111) -/

theorem bank_eq_getD (s : State) (c : Nat) : s.bank c = (s.banks[c]?).getD Bank.zero :=
  List.getD_eq_getElem?_getD

/-- The next cascade of a channel comes from its coefficients, its sample and its cascade. -/
theorem bankAfter_congr {s s' : State} {xs xs' : List Word} {c : Nat} (hcoef : s'.bankCoef c = s.bankCoef c)
    (hx : xs'[c]? = xs[c]?) (b : Bank) : bankAfter s' xs' c b = bankAfter s xs c b := by
  unfold bankAfter
  rw [hx, hcoef]

/-! ### Frames that bypass the filter bank (R109, R117) -/

theorem frameFiltered_of_bypassed {s : State} (h : frameEngaged s = false) (xs : List Word) :
    frameFiltered s xs = xs := by
  rw [frameFiltered, h, if_neg Bool.false_ne_true]

theorem frameNext_banks_of_bypassed {s : State} (h : frameEngaged s = false) (xs : List Word) :
    (frameNext s xs).banks = s.banks := by
  rw [frameNext_banks, h, if_neg Bool.false_ne_true]

/-- A bypassed frame is answered alike whatever the cascades hold. -/
theorem frameOut_setBanks_of_bypassed {s : State} (h : frameEngaged s = false) (bs : List Bank) (xs : List Word) :
    frameOut { s with banks := bs } xs = frameOut s xs := by
  have h' : frameEngaged { s with banks := bs } = false := h
  rw [frameOut, frameOut, frameFiltered_of_bypassed h', frameFiltered_of_bypassed h]
  rfl

/-- A bypassed frame carries the cascades along and reads none of them. -/
theorem frameNext_setBanks_of_bypassed {s : State} (h : frameEngaged s = false) (bs : List Bank) (xs : List Word) :
    frameNext { s with banks := bs } xs = { frameNext s xs with banks := bs } := by
  have h' : frameEngaged { s with banks := bs } = false := h
  rw [frameNext_eq { s with banks := bs } xs, frameNext_banks_of_bypassed h', frameNext_silCnt, frameNext_eq s xs,
    frameNext_silCnt]

/-- The distortion smoother rests at a value that bypasses the filter bank. -/
def State.restsBypassed (s : State) : Prop :=
  engaged s.dist.cur = false ∧ engaged s.dist.tgt = false ∧ s.dist.rem = 0#32

theorem State.restsBypassed.frameEngaged_eq_false {s : State} (h : s.restsBypassed) : frameEngaged s = false := h.1

theorem frameNext_restsBypassed {s : State} (h : s.restsBypassed) (xs : List Word) :
    (frameNext s xs).restsBypassed := by
  obtain ⟨-, htgt, hrem⟩ := h
  have hlast : s.dist.rem.toNat ≤ 1 := by
    rw [hrem]
    exact Nat.zero_le 1
  unfold State.restsBypassed
  rw [frameNext_dist, smNext_of_rem_le_one hlast]
  exact ⟨htgt, htgt, rfl⟩

theorem framesOut_setBanks_of_restsBypassed (frames : List (List Word)) {s : State} (h : s.restsBypassed)
    (bs : List Bank) : framesOut { s with banks := bs } frames = framesOut s frames := by
  induction frames generalizing s with
  | nil => rfl
  | cons xs rest ih =>
    have hbypass := h.frameEngaged_eq_false
    rw [framesOut_cons, framesOut_cons, frameOut_setBanks_of_bypassed hbypass,
      frameNext_setBanks_of_bypassed hbypass, ih (frameNext_restsBypassed h xs)]

theorem framesAfter_banks_of_restsBypassed (frames : List (List Word)) {s : State} (h : s.restsBypassed) :
    (framesAfter s frames).banks = s.banks := by
  induction frames generalizing s with
  | nil => rfl
  | cons xs rest ih =>
    rw [framesAfter_cons, ih (frameNext_restsBypassed h xs), frameNext_banks_of_bypassed h.frameEngaged_eq_false]

end Sys2Proof.Machine
end

section
/-! The loop of PROC over frames whose samples are all there (44_pipeline.md R112 to R114), as a command and as a step
from its header word on. -/

namespace Sys2Proof.Machine

/-! ### The state after a block -/

/-- The state after these frames and between commands, `taken` words further along the command stream, whose words are
now `rest`, with the frames answered (R112). -/
def blockDone (s : State) (frames : List (List Word)) (taken : Nat) (rest : List Word) : State :=
  { framesAfter s frames with
    cursor := s.cursor + taken
    input := rest
    pending := []
    procLeft := 0
    output := s.output ++ framesOut s frames }

theorem framesAfter_nil (s : State) : framesAfter s [] = s := rfl

theorem framesOut_nil (s : State) : framesOut s [] = [] := rfl

theorem framesAfter_betweenCommands {s : State} (h : s.betweenCommands) (frames : List (List Word)) :
    (framesAfter s frames).betweenCommands :=
  framesAfter_keeps State.betweenCommands
    (fun t xs ⟨hpending, hleft⟩ => ⟨(frameNext_pending t xs).trans hpending, (frameNext_procLeft t xs).trans hleft⟩)
    frames s h

/-- Frames leave the model's own fields of the command in progress as they are: empty. -/
theorem blockDone_eq {s : State} (h : s.betweenCommands) (frames : List (List Word)) (taken : Nat) (rest : List Word) :
    blockDone s frames taken rest
      = { framesAfter s frames with
          cursor := s.cursor + taken
          input := rest
          output := s.output ++ framesOut s frames } := by
  obtain ⟨hpending, hleft⟩ := framesAfter_betweenCommands h frames
  rw [blockDone, ← hpending, ← hleft]

theorem blockDone_betweenCommands (s : State) (frames : List (List Word)) (taken : Nat) (rest : List Word) :
    (blockDone s frames taken rest).betweenCommands := ⟨rfl, rfl⟩

theorem blockDone_mode (s : State) (frames : List (List Word)) (taken : Nat) (rest : List Word) :
    (blockDone s frames taken rest).mode = s.mode :=
  framesAfter_keeps (fun t => t.mode = s.mode) (fun t xs h => (frameNext_mode t xs).trans h) frames s rfl

theorem blockDone_por (s : State) (frames : List (List Word)) (taken : Nat) (rest : List Word) :
    (blockDone s frames taken rest).por = s.por :=
  framesAfter_keeps (fun t => t.por = s.por) (fun t xs h => (frameNext_por t xs).trans h) frames s rfl

theorem blockDone_nch (s : State) (frames : List (List Word)) (taken : Nat) (rest : List Word) :
    (blockDone s frames taken rest).nch = s.nch :=
  framesAfter_keeps (fun t => t.nch = s.nch) (fun t xs h => (frameNext_nch t xs).trans h) frames s rfl

/-- The words offered before a block play no part in the state after it, and the cursor is added to. -/
theorem blockDone_moved (s : State) (k : Nat) (ws : List Word) (frames : List (List Word)) (taken : Nat)
    (rest : List Word) :
    blockDone { s with cursor := s.cursor + k, input := ws } frames taken rest
      = blockDone s frames (k + taken) rest := by
  have hafter := framesAfter_streams frames s (s.cursor + k) ws s.pending s.procLeft s.output
  have hout := framesOut_streams frames s (s.cursor + k) ws s.pending s.procLeft s.output
  rw [blockDone, hafter, hout, blockDone, Nat.add_assoc]

theorem blockDone_setInput (s : State) (ws : List Word) (frames : List (List Word)) (taken : Nat) (rest : List Word) :
    blockDone { s with input := ws } frames taken rest = blockDone s frames taken rest := by
  have hmoved := blockDone_moved s 0 ws frames taken rest
  rwa [Nat.zero_add] at hmoved

theorem blockDone_cursor_succ (s : State) (frames : List (List Word)) (taken : Nat) (rest : List Word) :
    { blockDone s frames taken rest with cursor := (blockDone s frames taken rest).cursor + 1 }
      = blockDone s frames (taken + 1) rest := rfl

/-- One block and then another is the block of all their frames (R114). -/
theorem blockDone_blockDone (s : State) (first second : List (List Word)) (k taken : Nat) (ws rest : List Word) :
    blockDone (blockDone s first k ws) second taken rest = blockDone s (first ++ second) (k + taken) rest := by
  have hafter := framesAfter_streams second (framesAfter s first) (s.cursor + k) ws [] 0 (s.output ++ framesOut s first)
  have hout := framesOut_streams second (framesAfter s first) (s.cursor + k) ws [] 0 (s.output ++ framesOut s first)
  rw [blockDone, blockDone, hafter, hout, blockDone, framesAfter_append, framesOut_append, Nat.add_assoc,
    List.append_assoc]

/-! ### The loop and the command (R112) -/

theorem framesAfter_singleton (s : State) (xs : List Word) : framesAfter s [xs] = frameNext s xs := by
  rw [framesAfter_cons, framesAfter_nil]

theorem framesOut_singleton (s : State) (xs : List Word) : framesOut s [xs] = frameOut s xs := by
  rw [framesOut_cons, framesOut_nil, List.append_nil]

/-- The loop goes on from a frame whose samples are there as from a block of that one frame. -/
theorem procFrames_procFrame (n : Nat) {s : State} {xs ws : List Word} (hpending : s.pending = [])
    (hxs : xs.length = s.nch.toNat) (hinput : s.input = xs ++ ws) :
    procFrames n (procFrame s) = procFrames n (blockDone s [xs] s.nch.toNat ws) := by
  have htake : (s.pending ++ s.input).take s.nch.toNat = xs := by
    rw [hpending, hinput, ← hxs, List.nil_append, List.take_left]
  have hdrop : s.input.drop s.nch.toNat = ws := by
    rw [hinput, ← hxs, List.drop_left]
  rw [procFrame_eq, htake, hpending, List.length_nil, Nat.sub_zero, hdrop, blockDone, framesAfter_singleton,
    framesOut_singleton]
  generalize frameNext s xs = t
  exact (procFrames_procLeft n
    { t with cursor := s.cursor + s.nch.toNat, input := ws, pending := [], output := s.output ++ frameOut s xs } 0).symm

theorem procFrames_of_frames (frames : List (List Word)) (rest : List Word) {s : State} (hpending : s.pending = [])
    (hfit : framesFit s.nch.toNat frames) (hinput : s.input = frames.flatten ++ rest) :
    procFrames frames.length s = blockDone s frames (frames.length * s.nch.toNat) rest := by
  induction frames generalizing s with
  | nil =>
    rw [List.flatten_nil, List.nil_append] at hinput
    rw [List.length_nil, procFrames_zero, blockDone, framesAfter_nil, framesOut_nil, List.append_nil, Nat.zero_mul,
      Nat.add_zero, ← hinput, ← hpending]
  | cons xs frames ih =>
    obtain ⟨hxs, hfit'⟩ := List.forall_mem_cons.1 hfit
    rw [List.flatten_cons, List.append_assoc] at hinput
    have hoffered : s.nch.toNat ≤ (s.pending ++ s.input).length := by
      rw [hpending, hinput, List.nil_append, List.length_append, hxs]
      exact Nat.le_add_right _ _
    calc procFrames (frames.length + 1) s
        = procFrames frames.length (blockDone s [xs] s.nch.toNat (frames.flatten ++ rest)) := by
          rw [procFrames_ready _ s hoffered, procFrames_procFrame _ hpending hxs hinput]
      _ = blockDone (blockDone s [xs] s.nch.toNat (frames.flatten ++ rest)) frames (frames.length * s.nch.toNat)
            rest := by
          have hnch := blockDone_nch s [xs] s.nch.toNat (frames.flatten ++ rest)
          rw [ih rfl (by rw [hnch]; exact hfit') rfl, hnch]
      _ = blockDone s (xs :: frames) ((frames.length + 1) * s.nch.toNat) rest := by
          rw [blockDone_blockDone, List.singleton_append, Nat.add_comm s.nch.toNat, ← Nat.succ_mul]

theorem exec_proc_of_frames {s : State} {frames : List (List Word)} {rest : List Word} (hm : s.mode = .ready)
    (hpending : s.pending = []) (hfit : framesFit s.nch.toNat frames) (hinput : s.input = frames.flatten ++ rest) :
    exec (.proc frames.length) s = .next (blockDone s frames (frames.length * s.nch.toNat) rest) := by
  rw [exec_of_allowed (.proc frames.length) s (by rw [hm]; rfl)]
  exact congrArg Host.Outcome.next (procFrames_of_frames frames rest hpending hfit hinput)

theorem framesOut_length {n : Nat} {frames : List (List Word)} (hfit : framesFit n frames) (s : State) :
    (framesOut s frames).length = frames.length * n := by
  induction frames generalizing s with
  | nil => exact (Nat.zero_mul n).symm
  | cons xs rest ih =>
    obtain ⟨hxs, hrest⟩ := List.forall_mem_cons.1 hfit
    rw [framesOut_cons, List.length_append, frameOut_length, hxs, ih hrest, List.length_cons, Nat.succ_mul,
      Nat.add_comm]

/-! ### The step (R68, R113, R114) -/

/-- The step on the words of a block takes them, its header word among them, and leaves those that follow. -/
theorem step_of_block {s : State} {frames : List (List Word)} {rest : List Word} (hm : s.mode = .ready)
    (hb : s.betweenCommands) (hp : s.por = none) (hfit : framesFit s.nch.toNat frames)
    (hcount : frames.length < 2 ^ 16) (hinput : s.input = encodeBlock frames ++ rest) :
    step s = .next (blockDone s frames (1 + frames.length * s.nch.toNat) rest) := by
  obtain ⟨hpending, hleft⟩ := hb
  have hwords : s.pending ++ s.input = encode (.proc frames.length) ++ (frames.flatten ++ rest) := by
    rw [hpending, hinput, encodeBlock, List.nil_append, List.append_assoc]
  have hdec : decode (s.pending ++ s.input) = .ok (.proc frames.length, frames.flatten ++ rest) := by
    rw [hwords]
    exact decode_encode_append _ (decide_eq_true hcount)
  have htake : s.takeWords 1 = { s with cursor := s.cursor + 1, input := frames.flatten ++ rest } := by
    have hdrop := rest_of_decode hdec
    rw [hpending] at hdrop
    rw [State.takeWords, hpending, ← hdrop]
    rfl
  rw [step_of_decode hp hleft hdec (by rw [hm]; rfl), ← blockDone_moved s 1 (frames.flatten ++ rest)]
  show exec (.proc frames.length) (s.takeWords 1) = _
  rw [htake]
  exact exec_proc_of_frames hm hpending hfit rfl

/-- The same step, from whatever words stood in the stream before these were offered. -/
theorem step_of_offered_block {s : State} {frames : List (List Word)} (rest : List Word) (hm : s.mode = .ready)
    (hb : s.betweenCommands) (hp : s.por = none) (hfit : framesFit s.nch.toNat frames)
    (hcount : frames.length < 2 ^ 16) :
    step { s with input := encodeBlock frames ++ rest }
      = .next (blockDone s frames (1 + frames.length * s.nch.toNat) rest) := by
  rw [step_of_block (s := { s with input := encodeBlock frames ++ rest }) hm hb hp hfit hcount rfl, blockDone_setInput]

/-- The step on a block that follows another one in the stream. -/
theorem step_of_next_block {s : State} (first : List (List Word)) {second : List (List Word)} (taken : Nat)
    (rest : List Word) (hm : s.mode = .ready) (hp : s.por = none) (hfit : framesFit s.nch.toNat second)
    (hcount : second.length < 2 ^ 16) :
    step (blockDone s first taken (encodeBlock second ++ rest))
      = .next (blockDone s (first ++ second) (taken + (1 + second.length * s.nch.toNat)) rest) := by
  have hnch := blockDone_nch s first taken (encodeBlock second ++ rest)
  rw [step_of_block ((blockDone_mode ..).trans hm) (blockDone_betweenCommands ..) ((blockDone_por ..).trans hp)
    (by rw [hnch]; exact hfit) hcount rfl, hnch, blockDone_blockDone]

end Sys2Proof.Machine
end

section
/-! The statements about the pipeline (44_pipeline.md). -/

namespace Sys2Proof.Machine

/-- Settles O37: a bypassed frame takes its samples past the cascades, and a smoother that rests at a bypassing value
still does after the frame. -/
theorem bypassedBlockIgnoresFilter : Obligations.BypassedBlockIgnoresFilter := by
  intro s bs hcur
  refine ⟨fun xs => ⟨frameOut_setBanks_of_bypassed hcur bs xs, frameNext_banks_of_bypassed hcur xs⟩, ?_⟩
  intro hrem htgt frames
  have hrest : s.restsBypassed := ⟨hcur, htgt, hrem⟩
  exact ⟨framesOut_setBanks_of_restsBypassed frames hrest bs, framesAfter_banks_of_restsBypassed frames hrest⟩

/-- Settles O40: the element of channel `c` of both results is made of values that the two states and frames share. -/
theorem channelsAreIndependent : Obligations.ChannelsAreIndependent := by
  intro s s' xs xs' c hgain hdist hsil hstart hend hlen hcoef hbank hx
  have hg : frameGain s' = frameGain s := by rw [frameGain_eq, frameGain_eq, hgain]
  have he : frameEngaged s' = frameEngaged s := by rw [frameEngaged_eq, frameEngaged_eq, hdist]
  constructor
  · have hb : s'.bank c = s.bank c := by rw [bank_eq_getD, bank_eq_getD, hbank]
    rw [frameOut_getElem?, frameOut_getElem?, hx, fadeSample_congr hsil hstart hend hlen, hg, he, hcoef, hb]
  · have hnext : bankAfter s' xs' c = bankAfter s xs c := funext (bankAfter_congr hcoef hx)
    rw [frameNext_banks_getElem?, frameNext_banks_getElem?, hbank, he, hnext]

/-- Settles O42: a shaped sample is the gain or its negation, which the Active phase passes on; the Muted phase writes
+0.0 whatever it is. -/
theorem outputIsSignQuantised : Obligations.OutputIsSignQuantised := by
  intro s xs y hy
  refine ⟨fun hactive hgain => ?active, fun hmuted => ?muted⟩
  case active =>
    rw [frameOut_of_active s xs hactive] at hy
    obtain ⟨v, -, rfl⟩ := List.mem_map.1 hy
    rw [wsShape_eq_gain_or_fneg v hgain]
    split
    · exact Or.inl rfl
    · exact Or.inr rfl
  case muted =>
    rw [frameOut_of_muted s xs hmuted] at hy
    exact List.eq_of_mem_replicate hy

/-- Settles O52: the frame's writes field by field, and the cascades element by element. -/
theorem frameWritesItsRegisters : Obligations.FrameWritesItsRegisters := by
  intro s xs
  refine ⟨frameNext_eq s xs, ?_, fun c b hb => ?_, frameNext_silCnt_of_silent s xs, frameNext_silCnt_of_not_silent s xs⟩
  · rw [frameNext_banks]
    split
    · exact List.length_mapIdx
    · rfl
  · rw [frameNext_banks_getElem?, hb, Option.map_some, frameEngaged_eq, bankAfter]
    cases xs[c]? with
    | none => rw [ite_self]
    | some x => rfl

/-- Settles O53: the output of a channel, in the phase that the counter before the frame tells. -/
theorem frameAnswersEachChannel : Obligations.FrameAnswersEachChannel := by
  intro s xs
  refine ⟨frameOut_length s xs, fun c x hx => ⟨_, _, rfl, rfl, ?active, ?fading, ?muted⟩⟩
  all_goals rw [frameOut_getElem?, hx, Option.map_some]
  case active =>
    intro hlt
    rw [fadeSample_of_active (phase_eq_active hlt)]
    rfl
  case fading =>
    intro hge hlt
    rw [fadeSample_of_fading (phase_eq_fading hge hlt)]
    rfl
  case muted =>
    intro hge hge'
    rw [fadeSample_of_muted (phase_eq_muted hge hge')]

/-- Settles O56: a frame advances the gain before it uses it, and reads the distortion value before it advances it. -/
theorem engageLagsOneFrame : Obligations.EngageLagsOneFrame := by
  intro s t p law target ramp xs hm hramp h
  rw [exec_cfg_of_ready p law target ramp hm] at h
  injection h with h
  subst h
  constructor
  · rintro rfl
    rw [frameGain_eq, setSmoother_gain_gain, smNext_smConfigure_cur hramp]
  · rintro rfl
    rw [frameEngaged_eq, frameEngaged_eq, frameNext_dist, setSmoother_dist_dist, smNext_smConfigure_cur hramp,
      smConfigure_cur]
    exact ⟨rfl, rfl⟩

/-- Settles O51: the loop over the frames, and the length of what they answer. -/
theorem procRunsItsFrames : Obligations.ProcRunsItsFrames := by
  intro s frames rest hm hb hfit hinput
  have ⟨hpending, _⟩ := hb
  exact ⟨by rw [exec_proc_of_frames hm hpending hfit hinput, blockDone_eq hb], framesOut_length hfit s⟩

/-- Settles O55: both runs end with the block of all the frames done, and the second has taken one header word more. -/
theorem blockSplitIsInvisible : Obligations.BlockSplitIsInvisible := by
  intro s first second hm hb hp hfirst hsecond hcount
  have hboth : framesFit s.nch.toNat (first ++ second) := fun xs hxs =>
    (List.mem_append.1 hxs).elim (hfirst xs) (hsecond xs)
  have hlength : (first ++ second).length = first.length + second.length := List.length_append
  have hwhole := step_of_offered_block [] hm hb hp hboth hcount
  have hstep₁ := step_of_offered_block (encodeBlock second ++ []) hm hb hp hfirst (by omega)
  have hstep₂ := step_of_next_block first (1 + first.length * s.nch.toNat) [] hm hp hsecond (by omega)
  have htaken : 1 + first.length * s.nch.toNat + (1 + second.length * s.nch.toNat)
      = 1 + (first ++ second).length * s.nch.toNat + 1 := by
    rw [hlength, Nat.add_mul]
    omega
  rw [List.append_nil] at hwhole hstep₁ hstep₂
  refine ⟨_, core_run_succ 0 _ _ hwhole, ?_⟩
  rw [blockDone_cursor_succ, ← htaken, core_run_succ 1 _ _ hstep₁, core_run_succ 0 _ _ hstep₂]
  rfl

/-- Settles O14: with the reset line low the front of the stream ends in a next state, and the power-on reset is one. -/
theorem everyStepCompletes : Obligations.EveryStepCompletes := by
  intro s
  cases hp : s.por with
  | none => exact ⟨_, step_of_por_none s hp⟩
  | some k => exact ⟨_, step_of_por_some s k hp⟩

/-- Settles O54: the word is the header of a block of no frames. -/
theorem emptyBlockDoesNothing : Obligations.EmptyBlockDoesNothing := by
  intro s rest hm hb hp hinput
  have hheader : encodeBlock [] = [0x04000000#32] := rfl
  have hfit : framesFit s.nch.toNat [] := List.forall_mem_nil _
  have hblock : s.input = encodeBlock [] ++ rest := by rw [hheader]; exact hinput
  rw [step_of_block hm hb hp hfit (Nat.two_pow_pos 16) hblock, blockDone_eq hb, framesAfter_nil, framesOut_nil,
    List.append_nil, List.length_nil, Nat.zero_mul]

end Sys2Proof.Machine
end

section
/-! INIT and RESET (45_system.md). After its checks INIT is a RESET of the state that holds the new configuration, and
RESET settles in one application: R123 follows from these two facts. -/

namespace Sys2Proof.Machine

/-! ### The effects of RESET (R122) -/

theorem resetEffects_eq (s : State) :
    resetEffects s = { s with silCnt := s.fadeEnd, banks := (resetEffects s).banks } := rfl

theorem resetEffects_banks_length (s : State) : (resetEffects s).banks.length = s.banks.length := by
  rw [resetEffects_banks, resetBanks_banks, List.length_mapIdx]

theorem resetEffects_banks_of_some {s : State} {c : Nat} {b : Bank} (hb : s.banks[c]? = some b) :
    (resetEffects s).banks[c]? = some (if c < s.nch.toNat then Bank.zero else b) := by
  rw [resetEffects_banks_getElem?, hb, Option.map_some]

theorem resetEffects_resetEffects (s : State) : resetEffects (resetEffects s) = resetEffects s := by
  have hbanks : (resetEffects (resetEffects s)).banks = (resetEffects s).banks := by
    refine List.ext_getElem? fun c => ?_
    rw [resetEffects_banks_getElem?, resetEffects_nch, resetEffects_banks_getElem?, Option.map_map]
    refine Option.map_congr fun b _ => ?_
    by_cases hc : c < s.nch.toNat
    · simp only [Function.comp_apply, if_pos hc]
    · simp only [Function.comp_apply, if_neg hc]
  rw [resetEffects_eq (resetEffects s), hbanks]
  rfl

/-! ### The checks and the effects of INIT (R120) -/

/-- What is not above a word that is a number is NaN, or at most that word (R17). -/
theorem fgt_eq_false_iff (a : Word) {b : Word} (hb : isNaN b = false) :
    fgt a b = false ↔ isNaN a = true ∨ fge b a = true := by
  cases ha : isNaN a with
  | true => simp [fgt, ha]
  | false => simp [fgt, fge, ha, hb]

theorem configRefused_iff (maxch nch : Nat) (fs : Word) :
    configRefused maxch nch fs = true
      ↔ nch = 0 ∨ maxch < nch ∨ isNaN fs = true ∨ fge posZero fs = true ∨ fs = posInf := by
  have hrate := fgt_eq_false_iff fs (b := posZero) (by decide)
  simp [configRefused, hrate, or_assoc]

/-- The registers of a new session, before the RESET that ends INIT. -/
def sessionStart (nch : Nat) (fs : Word) (s : State) : State :=
  sfThresh fs { s with mode := .ready, nch := BitVec.ofNat 32 nch, fs := fs }

theorem initEffects_eq_resetEffects (nch : Nat) (fs : Word) (s : State) :
    initEffects nch fs s = resetEffects (sessionStart nch fs s) := by
  unfold initEffects sessionStart sfThresh
  rfl

theorem exec_init_of_refused {s : State} {nch : Nat} {fs : Word} (hm : s.mode = .uninit)
    (h : configRefused s.params.maxch nch fs = true) : exec (.init nch fs) s = .next (s.raiseFault .config) := by
  rw [exec_of_allowed (.init nch fs) s (by rw [hm]; rfl), commandEffect, if_pos h]

theorem exec_init_of_accepted {s : State} {nch : Nat} {fs : Word} (hm : s.mode = .uninit)
    (h : configRefused s.params.maxch nch fs = false) : exec (.init nch fs) s = .next (initEffects nch fs s) := by
  rw [exec_of_allowed (.init nch fs) s (by rw [hm]; rfl), commandEffect, h, if_neg Bool.false_ne_true]

/-- An INIT that leaves `READY` has succeeded: in `FAULT` it does nothing, in `READY` it raises STATE, and where it is
refused it raises CONFIG. -/
theorem eq_initEffects_of_exec_init {s t : State} {nch : Nat} {fs : Word} (h : exec (.init nch fs) s = .next t)
    (ht : t.mode = .ready) : t = initEffects nch fs s := by
  cases hm : s.mode with
  | fault =>
    rw [exec_of_fault _ s hm] at h
    cases h
    rw [hm] at ht
    cases ht
  | ready =>
    rw [exec_of_not_allowed _ s (by rw [hm]; decide) (by rw [hm]; rfl)] at h
    cases h
    cases ht
  | uninit =>
    cases hr : configRefused s.params.maxch nch fs with
    | true =>
      rw [exec_init_of_refused hm hr] at h
      cases h
      cases ht
    | false =>
      rw [exec_init_of_accepted hm hr] at h
      cases h
      rfl

/-! ### The statements -/

/-- Settles O22: the operands pass the checks, and the RESET that ends INIT zeroes the cascades below the new `NCH`,
which the register holds in full (R7). -/
theorem initEntersReady : Obligations.InitEntersReady := by
  intro s nch fs hm hmax hpos hle hrate hinf
  have hok : configRefused s.params.maxch nch fs = false :=
    (configRefused_false_iff _ _ _).2 ⟨Nat.one_le_iff_ne_zero.1 hpos, hle, hrate, hinf⟩
  have hnch : (sessionStart nch fs s).nch.toNat = nch := by
    rw [sessionStart, sfThresh_nch, BitVec.toNat_ofNat, Nat.mod_eq_of_lt (by omega)]
  refine ⟨(resetEffects (sessionStart nch fs s)).banks, exec_init_of_accepted hm hok,
    resetEffects_banks_length (sessionStart nch fs s), fun c b hb => ?_⟩
  have hafter := resetEffects_banks_of_some (s := sessionStart nch fs s) hb
  rw [hnch] at hafter
  exact hafter

/-- Settles O24: in `READY` the command is its effects. -/
theorem resetZeroesFilterAndMutes : Obligations.ResetZeroesFilterAndMutes := fun s hm =>
  ⟨(resetEffects s).banks, exec_reset_of_ready hm, resetEffects_banks_length s,
    fun _ _ hb => resetEffects_banks_of_some hb⟩

/-- Settles O25: both commands leave a state that RESET has written, and RESET leaves such a state as it is. -/
theorem resetIsIdempotent : Obligations.ResetIsIdempotent := by
  refine ⟨fun s t hm h => ?twice, fun s t nch fs h ht => ?afterInit⟩
  case twice =>
    rw [exec_reset_of_ready hm] at h
    cases h
    rw [exec_reset_of_ready (s := resetEffects s) hm, resetEffects_resetEffects]
  case afterInit =>
    rw [exec_reset_of_ready ht, eq_initEffects_of_exec_init h ht, initEffects_eq_resetEffects,
      resetEffects_resetEffects]

/-- Settles O23: the five causes are the ones of the check. -/
theorem initRefusesBadConfiguration : Obligations.InitRefusesBadConfiguration := fun s nch fs hm hbad =>
  exec_init_of_refused hm ((configRefused_iff s.params.maxch nch fs).2 hbad)

end Sys2Proof.Machine
end

section
/-! Faults (60_exceptions.md): which commands raise one, and with which code (R126 to R128); the words that `FAULT`
takes (R129). -/

namespace Sys2Proof.Machine

/-! ### The commands that a mode allows (R126, R130) -/

/-- The samples, targets and ramp times of PROC and CFG are data: no value of them is an error. -/
theorem commandEffect_mode_err {i : Instr} (s : State) (hinit : i.opcode ≠ .init) (hrdreg : i.opcode ≠ .rdreg) :
    (commandEffect i s).mode = s.mode ∧ (commandEffect i s).err = s.err := by
  cases i with
  | init nch fs => exact absurd rfl hinit
  | reset => exact ⟨rfl, rfl⟩
  | cfg p law target ramp => exact ⟨setSmoother_mode s p _, setSmoother_err s p _⟩
  | proc n => exact ⟨procFrames_mode n s, procFrames_err n s⟩
  | rdreg a => exact absurd rfl hrdreg

theorem exec_stays_ready {i : Instr} {s : State} (hm : s.mode = .ready) (ha : allowedIn i.opcode .ready = true)
    (hrdreg : i.opcode ≠ .rdreg) : ∃ t, exec i s = .next t ∧ t.mode = .ready ∧ t.err = s.err := by
  have hinit : i.opcode ≠ .init := by
    intro hi
    rw [hi] at ha
    exact Bool.false_ne_true ha
  obtain ⟨hmode, herr⟩ := commandEffect_mode_err s hinit hrdreg
  exact ⟨commandEffect i s, exec_of_allowed i s (by rw [hm]; exact ha), hmode.trans hm, herr⟩

theorem configRefused_true_iff (maxch nch : Nat) (fs : Word) :
    configRefused maxch nch fs = true ↔ nch = 0 ∨ maxch < nch ∨ fgt fs posZero = false ∨ fs = posInf := by
  simp [configRefused, or_assoc]

/-- Of the commands that run, an INIT whose operands are refused and an RDREG of an unmapped address are the ones that
fault. -/
theorem commandEffect_fault_cases {i : Instr} {s : State} (hm : s.mode ≠ .fault)
    (ht : (commandEffect i s).mode = .fault) :
    (∃ nch fs, i = .init nch fs ∧ configRefused s.params.maxch nch fs = true
        ∧ commandEffect i s = s.raiseFault .config)
    ∨ (∃ a, i = .rdreg a ∧ memRead s a = none ∧ commandEffect i s = s.raiseFault .addr) := by
  have hkept (hinit : i.opcode ≠ .init) (hrdreg : i.opcode ≠ .rdreg) : (commandEffect i s).mode ≠ .fault := by
    obtain ⟨hmode, -⟩ := commandEffect_mode_err s hinit hrdreg
    exact hmode.trans_ne hm
  cases i with
  | init nch fs =>
    rcases commandEffect_init_cases nch fs s with ⟨hrefused, heq⟩ | ⟨-, heq⟩
    · exact Or.inl ⟨nch, fs, rfl, hrefused, heq⟩
    · rw [heq, initEffects_mode] at ht
      cases ht
  | rdreg a =>
    rcases commandEffect_rdreg_cases a s with ⟨w, -, heq⟩ | ⟨hunmapped, heq⟩
    · rw [heq, emit_mode] at ht
      exact absurd ht hm
    · exact Or.inr ⟨a, rfl, hunmapped, heq⟩
  | reset | cfg | proc => exact absurd ht (hkept nofun nofun)

/-! ### The words that `FAULT` takes (R129) -/

theorem discardWord_eq (s : State) :
    s.discardWord = { s with cursor := s.cursor + min 1 s.input.length, input := s.input.drop 1 } := by
  cases hi : s.input with
  | nil =>
    have hsame : s.discardWord = s := by simp [State.discardWord, hi]
    rw [hsame, List.length_nil, Nat.min_zero, List.drop_nil, ← hi, Nat.add_zero]
  | cons w ws => simp [discardWord_of_cons hi]

theorem step_of_fault {s : State} (hp : s.por = none) (hm : s.mode = .fault) : step s = .next s.discardWord :=
  step_of_settled hp (fetch_of_fault s hm)

/-! ### The statements -/

/-- Settles O17: a command that its mode does not allow raises STATE; one that runs faults in the two cases of
`commandEffect_fault_cases`. -/
theorem commandFaultsArePrecise : Obligations.CommandFaultsArePrecise := by
  intro i s t hm h ht
  cases ha : allowedIn i.opcode s.mode with
  | false =>
    rw [exec_of_not_allowed i s hm ha] at h
    cases h
    exact ⟨.state, rfl, Or.inl ⟨rfl, rfl⟩⟩
  | true =>
    rw [exec_of_allowed i s ha] at h
    cases h
    rcases commandEffect_fault_cases hm ht with ⟨nch, fs, rfl, hrefused, heq⟩ | ⟨a, rfl, hunmapped, heq⟩
    · have huninit : s.mode = .uninit := by simpa [Instr.opcode] using allowedIn_cases _ _ ha
      have hcauses := (configRefused_true_iff _ _ _).1 hrefused
      exact ⟨.config, heq, Or.inr (Or.inl ⟨rfl, huninit, nch, fs, rfl, hcauses⟩)⟩
    · exact ⟨.addr, heq, Or.inr (Or.inr ⟨rfl, a, rfl, hunmapped⟩)⟩

/-- Settles O19, by induction on the number of steps: the first discards a word, if there is one, and the rest run from
a state that is still in `FAULT`. -/
theorem faultSwallowsEveryWord : Obligations.FaultSwallowsEveryWord := by
  intro n
  induction n with
  | zero =>
    intro s hm hp
    simp [Host.Core.run]
  | succ n ih =>
    intro s hm hp
    have hrest := ih s.discardWord ((discardWord_mode s).trans hm) ((discardWord_por s).trans hp)
    have hcursor : s.cursor + min 1 s.input.length + min n (s.input.length - 1)
        = s.cursor + min (n + 1) s.input.length := by omega
    rw [core_run_succ n s s.discardWord (step_of_fault hp hm), hrest, discardWord_eq, List.length_drop,
      List.drop_drop, hcursor, Nat.add_comm 1 n]

/-- Settles O57: none of the three is INIT or RDREG. -/
theorem dataNeverFaults : Obligations.DataNeverFaults := fun _ hm =>
  ⟨exec_stays_ready hm rfl nofun, fun _ _ _ _ => exec_stays_ready hm rfl nofun,
    fun _ => exec_stays_ready hm rfl nofun⟩

end Sys2Proof.Machine
end

section
/-! A PROC that waits for samples (70_reset_and_hazards.md R144): words that come late count as if they had been offered
with the others. -/

namespace Sys2Proof.Machine

/-- The state with more words offered on the command stream, behind those that are there (R41). -/
def State.offer (s : State) (ws : List Word) : State := { s with input := s.input ++ ws }

theorem offer_of_input_nil {s : State} (h : s.input = []) (ws : List Word) : s.offer ws = { s with input := ws } := by
  rw [State.offer, h, List.nil_append]

/-! ### One frame -/

theorem procFrame_nch (s : State) : (procFrame s).nch = s.nch := by rw [procFrame_eq, frameNext_nch]

theorem procFrame_length_words_le (s : State) :
    ((procFrame s).pending ++ (procFrame s).input).length ≤ (s.pending ++ s.input).length - s.nch.toNat := by
  rw [procFrame_eq, List.nil_append, List.length_drop, List.length_append]
  omega

/-- One frame of a PROC, from whatever stands in the command stream and in the words held. -/
theorem procFrame_streams (s : State) (c : Nat) (i p : List Word) :
    procFrame { s with cursor := c, input := i, pending := p }
      = { frameNext s ((p ++ i).take s.nch.toNat) with
          cursor := c + (s.nch.toNat - p.length)
          input := i.drop (s.nch.toNat - p.length)
          pending := []
          output := s.output ++ frameOut s ((p ++ i).take s.nch.toNat) } := by
  have hnext := frameNext_streams s ((p ++ i).take s.nch.toNat) c i p s.procLeft s.output
  have hout := frameOut_streams s ((p ++ i).take s.nch.toNat) c i p s.procLeft s.output
  rw [procFrame_eq, hnext, hout, ← frameNext_procLeft s ((p ++ i).take s.nch.toNat)]

/-- A frame whose samples are there takes none of the words that come behind them. -/
theorem procFrame_offer {s : State} (h : s.nch.toNat ≤ (s.pending ++ s.input).length) (ws : List Word) :
    procFrame (s.offer ws) = (procFrame s).offer ws := by
  have htake : (s.pending ++ (s.input ++ ws)).take s.nch.toNat = (s.pending ++ s.input).take s.nch.toNat := by
    rw [← List.append_assoc, List.take_append_of_le_length h]
  have hdrop : (s.input ++ ws).drop (s.nch.toNat - s.pending.length)
      = s.input.drop (s.nch.toNat - s.pending.length) ++ ws := by
    rw [List.length_append] at h
    exact List.drop_append_of_le_length (by omega)
  have hframe := procFrame_streams s s.cursor (s.input ++ ws) s.pending
  rw [htake, hdrop] at hframe
  rw [procFrame_eq s]
  exact hframe

/-- A frame takes the words held before those offered, and does not see which of them had been held. -/
theorem procFrame_awaitWords_offer {s : State} (h : (s.pending ++ s.input).length ≤ s.nch.toNat) (ws : List Word) :
    procFrame (s.awaitWords.offer ws) = procFrame (s.offer ws) := by
  rw [List.length_append] at h
  have hcursor : s.cursor + s.input.length + (s.nch.toNat - (s.pending ++ s.input).length)
      = s.cursor + (s.nch.toNat - s.pending.length) := by rw [List.length_append]; omega
  have hdrop : (s.input ++ ws).drop (s.nch.toNat - s.pending.length)
      = ws.drop (s.nch.toNat - (s.pending ++ s.input).length) := by
    rw [List.drop_append, List.drop_eq_nil_of_le (by omega), List.nil_append, Nat.sub_sub, List.length_append]
  have hheld := procFrame_streams s (s.cursor + s.input.length) ws (s.pending ++ s.input)
  have hoffered := procFrame_streams s s.cursor (s.input ++ ws) s.pending
  rw [hcursor, List.append_assoc, ← hdrop, ← hoffered] at hheld
  exact hheld

/-! ### The loop of PROC -/

theorem procFrames_por (n : Nat) (s : State) : (procFrames n s).por = s.por :=
  procFrames_keeps (fun t => t.por = s.por) (fun t _ h => by rw [procFrame_eq]; exact (frameNext_por t _).trans h)
    (fun _ _ h => h) (fun _ _ h => h) n s rfl

/-- A loop that has fewer words than its frames need stops with frames left, all the words taken. -/
theorem procFrames_waits {n : Nat} {s : State} (h : (s.pending ++ s.input).length < n * s.nch.toNat) :
    0 < (procFrames n s).procLeft ∧ (procFrames n s).input = [] := by
  induction n generalizing s with
  | zero => rw [Nat.zero_mul] at h; exact absurd h (Nat.not_lt_zero _)
  | succ k ih =>
    rcases Nat.lt_or_ge (s.pending ++ s.input).length s.nch.toNat with hlt | hge
    · rw [procFrames_starved k s hlt]
      exact ⟨Nat.succ_pos k, rfl⟩
    · rw [procFrames_ready k s hge]
      have hwords := procFrame_length_words_le s
      rw [Nat.succ_mul] at h
      exact ih (by rw [procFrame_nch]; omega)

theorem procFrames_awaitWords_offer (k : Nat) {s : State} (h : (s.pending ++ s.input).length < s.nch.toNat)
    (ws : List Word) : procFrames (k + 1) (s.awaitWords.offer ws) = procFrames (k + 1) (s.offer ws) := by
  have hwords : (s.awaitWords.offer ws).pending ++ (s.awaitWords.offer ws).input
      = (s.offer ws).pending ++ (s.offer ws).input := List.append_assoc s.pending s.input ws
  rcases Nat.lt_or_ge ((s.offer ws).pending ++ (s.offer ws).input).length s.nch.toNat with hlt | hge
  · have hlt' : _ < (s.awaitWords.offer ws).nch.toNat := hwords ▸ hlt
    rw [procFrames_starved k (s.offer ws) hlt, procFrames_starved k (s.awaitWords.offer ws) hlt']
    simp [State.awaitWords, State.offer, Nat.add_assoc]
  · have hge' : (s.awaitWords.offer ws).nch.toNat ≤ _ := hwords ▸ hge
    rw [procFrames_ready k (s.offer ws) hge, procFrames_ready k (s.awaitWords.offer ws) hge',
      procFrame_awaitWords_offer h.le]

/-- However far the loop came, going on with more words gives the state of the loop that had them from the start. -/
theorem procFrames_resume (n : Nat) (s : State) (ws : List Word) :
    procFrames (procFrames n s).procLeft ((procFrames n s).offer ws) = procFrames n (s.offer ws) := by
  induction n generalizing s with
  | zero => rfl
  | succ k ih =>
    rcases Nat.lt_or_ge (s.pending ++ s.input).length s.nch.toNat with hlt | hge
    · rw [procFrames_starved k s hlt, ← procFrames_awaitWords_offer k hlt ws]
      exact procFrames_procLeft (k + 1) (s.awaitWords.offer ws) (k + 1)
    · have hoffered : (s.offer ws).nch.toNat ≤ ((s.offer ws).pending ++ (s.offer ws).input).length := by
        simp only [State.offer, ← List.append_assoc, List.length_append] at hge ⊢
        omega
      rw [procFrames_ready k s hge, procFrames_ready k (s.offer ws) hoffered, procFrame_offer hge]
      exact ih (procFrame s)

/-! ### The command and the step -/

theorem exec_proc_of_ready (n : Nat) {s : State} (hm : s.mode = .ready) :
    exec (.proc n) s = .next (procFrames n s) :=
  exec_of_allowed (.proc n) s (by rw [hm]; rfl)

theorem step_of_progress {s : State} (hp : s.por = none) (hm : s.mode ≠ .fault) (hl : s.procLeft ≠ 0) :
    step s = .next (procFrames s.procLeft s) :=
  step_of_settled hp (fetch_of_progress s hm hl)

/-- The step from a loop that waits, once more words are offered. -/
theorem step_of_waiting {n : Nat} {s : State} (hm : s.mode = .ready) (hp : s.por = none)
    (h : (s.pending ++ s.input).length < n * s.nch.toNat) (ws : List Word) :
    step ((procFrames n s).offer ws) = .next (procFrames n (s.offer ws)) := by
  obtain ⟨hleft, -⟩ := procFrames_waits h
  have hpor : (procFrames n s).por = none := (procFrames_por n s).trans hp
  have hmode : (procFrames n s).mode ≠ .fault := by rw [procFrames_mode, hm]; nofun
  rw [step_of_progress (s := (procFrames n s).offer ws) hpor hmode hleft.ne']
  exact congrArg Host.Outcome.next (procFrames_resume n s ws)

end Sys2Proof.Machine
end

section
/-! The reset line (70_reset_and_hazards.md R139): no part of the machine but the step itself sees it, so that a command
that is cut answers what it would have answered. -/

namespace Sys2Proof.Machine

/-- The state with the reset line at `p` (R139). -/
def State.withPor (s : State) (p : Option Nat) : State := { s with por := p }

theorem ite_withPor (c : Prop) [Decidable c] (s t : State) (p : Option Nat) :
    (if c then s else t).withPor p = if c then s.withPor p else t.withPor p :=
  apply_ite (State.withPor · p) c s t

/-- The front of the stream, in the same state but for the reset line. -/
def Fetched.withPor (f : Fetched) (p : Option Nat) : Fetched :=
  match f with
  | .settled s => .settled (s.withPor p)
  | .run i s => .run i (s.withPor p)

/-! ### The front of the command stream -/

theorem discardWord_withPor (s : State) (p : Option Nat) : (s.withPor p).discardWord = s.discardWord.withPor p := by
  rw [discardWord_eq, discardWord_eq]
  rfl

theorem frameNext_withPor (s : State) (xs : List Word) (p : Option Nat) :
    frameNext (s.withPor p) xs = (frameNext s xs).withPor p := by
  have hsil : (frameNext (s.withPor p) xs).silCnt = (frameNext s xs).silCnt := by
    rw [frameNext_silCnt, frameNext_silCnt]
    rfl
  have hbanks : (frameNext (s.withPor p) xs).banks = (frameNext s xs).banks := by
    rw [frameNext_banks, frameNext_banks]
    rfl
  rw [frameNext_eq (s.withPor p), hsil, hbanks, frameNext_eq s]
  rfl

theorem procFrame_withPor (s : State) (p : Option Nat) : procFrame (s.withPor p) = (procFrame s).withPor p := by
  have hnext := frameNext_withPor s ((s.pending ++ s.input).take s.nch.toNat) p
  rw [procFrame_eq, procFrame_eq s]
  simp only [State.withPor] at hnext ⊢
  rw [hnext]
  rfl

theorem procFrames_withPor (n : Nat) (s : State) (p : Option Nat) :
    procFrames n (s.withPor p) = (procFrames n s).withPor p := by
  induction n generalizing s with
  | zero => rfl
  | succ k ih =>
    rcases Nat.lt_or_ge (s.pending ++ s.input).length s.nch.toNat with hlt | hge
    · rw [procFrames_starved k s hlt, procFrames_starved k (s.withPor p) hlt]
      rfl
    · rw [procFrames_ready k s hge, procFrames_ready k (s.withPor p) hge, procFrame_withPor, ih (procFrame s)]

theorem fetchCommand_of_no_words {s : State} (hw : s.pending ++ s.input = []) : fetchCommand s = .settled s := by
  unfold fetchCommand
  rw [hw]

theorem fetchCommand_withPor (s : State) (p : Option Nat) :
    fetchCommand (s.withPor p) = (fetchCommand s).withPor p := by
  cases hw : s.pending ++ s.input with
  | nil => rw [fetchCommand_of_no_words hw, fetchCommand_of_no_words (s := s.withPor p) hw, Fetched.withPor]
  | cons h ops =>
    rw [fetchCommand_of_header hw, fetchCommand_of_header (s := s.withPor p) hw]
    cases hd : decodeHeader h with
    | error e =>
      rw [fetchHeader_of_error ops hd, fetchHeader_of_error ops hd]
      rfl
    | ok op =>
      cases ha : allowedIn op s.mode with
      | false =>
        rw [fetchHeader_of_not_allowed ops hd ha, fetchHeader_of_not_allowed (s := s.withPor p) ops hd ha]
        rfl
      | true =>
        rw [fetchHeader_of_allowed ops hd ha, fetchHeader_of_allowed (s := s.withPor p) ops hd ha]
        unfold fetchOperands
        cases withOperands op h ops <;> rfl

theorem fetch_withPor (s : State) (p : Option Nat) : fetch (s.withPor p) = (fetch s).withPor p := by
  by_cases hm : s.mode = .fault
  · rw [fetch_of_fault s hm, fetch_of_fault (s.withPor p) hm, discardWord_withPor]
    rfl
  · by_cases hl : s.procLeft = 0
    · rw [fetch_of_command s hm hl, fetch_of_command (s.withPor p) hm hl, fetchCommand_withPor]
    · rw [fetch_of_progress s hm hl, fetch_of_progress (s.withPor p) hm hl]
      exact congrArg Fetched.settled (procFrames_withPor s.procLeft s p)

/-! ### The command -/

theorem setSmoother_withPor (s : State) (i : SmIdx) (sm : Smoother) (p : Option Nat) :
    (s.withPor p).setSmoother i sm = (s.setSmoother i sm).withPor p := by
  cases i <;> rfl

theorem initEffects_withPor (nch : Nat) (fs : Word) (s : State) (p : Option Nat) :
    initEffects nch fs (s.withPor p) = (initEffects nch fs s).withPor p := by
  unfold initEffects sfThresh
  rfl

theorem smoother_withPor (s : State) (i : SmIdx) (p : Option Nat) : (s.withPor p).smoother i = s.smoother i := by
  cases i <;> rfl

theorem memRead_withPor (s : State) (a : Nat) (p : Option Nat) : memRead (s.withPor p) a = memRead s a := rfl

theorem commandEffect_withPor (i : Instr) (s : State) (p : Option Nat) :
    commandEffect i (s.withPor p) = (commandEffect i s).withPor p := by
  cases i with
  | init nch fs =>
    rw [commandEffect, commandEffect, initEffects_withPor, ite_withPor]
    rfl
  | reset => rfl
  | cfg i law target ramp =>
    rw [commandEffect, smoother_withPor]
    exact setSmoother_withPor s i _ p
  | proc n => exact procFrames_withPor n s p
  | rdreg a =>
    rw [commandEffect, memRead_withPor, commandEffect]
    cases memRead s a <;> rfl

theorem commandResult_withPor (i : Instr) (s : State) (p : Option Nat) :
    commandResult i (s.withPor p) = (commandResult i s).withPor p := by
  rw [commandResult, commandResult, commandEffect_withPor, ite_withPor, ite_withPor]
  rfl

/-! ### The step -/

theorem commandStep_withPor (s : State) (p : Option Nat) :
    commandStep (s.withPor p) = .next ((fetchedResult (fetch s)).withPor p) := by
  rw [commandStep_eq, fetch_withPor]
  cases fetch s with
  | settled t => rfl
  | run i t => exact congrArg Host.Outcome.next (commandResult_withPor i t p)

/-- The power-on reset keeps the first `k` of the responses that the step would have added without it (U9). -/
theorem step_of_cut {s t : State} (k : Nat) (hp : s.por = none) (h : step s = .next t) :
    step (s.withPor (some k)) = .next (powerOnAfter s k (.next t)) := by
  rw [step_of_por_none s hp] at h
  injection h with h
  rw [step_of_por_some (s.withPor (some k)) k rfl, commandStep_withPor, h]
  rfl

theorem step_mode_ne_uninit {s t : State} (hp : s.por = none) (hm : s.mode ≠ .uninit) (h : step s = .next t) :
    t.mode ≠ .uninit := by
  refine step_keeps (fun u => u.mode ≠ .uninit) ?discard ?proc ?fault ?wait ?run s t hp h hm
  case discard => exact fun u _ hu => (discardWord_mode u).trans_ne hu
  case proc => exact fun u _ _ hu => (procFrames_mode _ u).trans_ne hu
  case fault => exact fun u code _ _ _ _ _ => nofun
  case wait => exact fun u _ _ _ hu => hu
  case run => exact fun u i _ _ _ hu => commandEffect_mode_ne_uninit i (u.takeWords _) hu

end Sys2Proof.Machine
end

section
/-! The statements about reset and hazards (70_reset_and_hazards.md). -/

namespace Sys2Proof.Machine

/-- Settles O15: the PROC stops where its words end, and the step takes up the loop with the frames it had left. -/
theorem waitingProcResumesUnchanged : Obligations.WaitingProcResumesUnchanged := by
  intro s u n early late hm ⟨hpending, _⟩ hp hshort hu
  rw [exec_proc_of_ready n (s := { s with input := early }) hm] at hu
  injection hu with hu
  subst hu
  have hwords : (s.pending ++ early).length < n * s.nch.toNat := by rw [hpending]; exact hshort
  have ⟨hleft, hinput⟩ := procFrames_waits (s := { s with input := early }) hwords
  refine ⟨(procFrames_mode n _).trans hm, hleft, hinput, ?_⟩
  rw [← offer_of_input_nil hinput, step_of_waiting (s := { s with input := early }) hm hp hwords]
  exact (exec_proc_of_ready n (s := { s with input := early ++ late }) hm).symm

/-- Settles O20: the power-on reset by its definition; without it a step in `FAULT` discards a word, and no other leads
back to `UNINIT`. -/
theorem onlyPowerOnLeavesFault : Obligations.OnlyPowerOnLeavesFault := by
  refine ⟨fun s k hp => ⟨_, step_of_por_some s k hp, List.length_take_le _ _⟩, ?_⟩
  intro s t hp h
  refine ⟨fun hm => ?fault, fun ht => ?uninit⟩
  case fault =>
    rw [step_of_fault hp hm] at h
    injection h with h
    rw [← h]
    exact ⟨(discardWord_mode s).trans hm, discardWord_err s⟩
  case uninit => exact not_imp_not.1 (fun hm => step_mode_ne_uninit hp hm h) ht

/-- Settles O21: the command that is cut does not see the reset line. -/
theorem powerOnCutsAnywhere : Obligations.PowerOnCutsAnywhere := fun _ _ k hp h => step_of_cut k hp h

end Sys2Proof.Machine
end
